-- ==== Sys2Proof/Word.lean ====
section
/-! DEFINITION. The word types of the block (00_scope.md R10, 30_encoding.md R60). -/

namespace Sys2Proof

/-- A byte: an unsigned integer in [0, 255] (R10). -/
abbrev Byte := BitVec 8

/-- A command word, CMD: 32 bits (R60). -/
abbrev CmdWord := BitVec 32

end Sys2Proof
end

