-- ==== Sys2Proof/Config.lean ====
section
/-! DEFINITION. The open parameters of the block: W_MAX (00_scope.md R8, 92_eei_decisions.md D13). The other open
parameter, IFACE_PROTOCOL, changes no result and has no counterpart here (R7, R61). -/

namespace Sys2Proof

/-- By how much W_MAX exceeds its least admitted value 1. Open: it has no body, so no proof can lean on a value (log 4). -/
opaque Config.wMaxAboveOne : Nat

/-- W_MAX, the longest scanline COMPRESS admits, in bytes: open, at least 1 (R8, D13; log 4). -/
def Config.wMax : Nat := Config.wMaxAboveOne + 1

end Sys2Proof
end

