-- ==== Sys2Proof/Machine/Params.lean ====
section
/-! DEFINITION. The build parameters the spec gives a value (00_scope.md R8). -/

namespace Sys2Proof.Machine

/-- REP_MAX: the largest count of one RepeatRun (R8). -/
def repMax : Nat := 128

/-- LIT_MAX: the largest length of one LiteralRun (R8; conflict C1). -/
def litMax : Nat := 128

/-- T_DEFAULT: the threshold an assembler line may omit (R8, R73). -/
def tDefault : Nat := 3

/-- T_LIMIT: the largest threshold COMPRESS admits (R8). -/
def tLimit : Nat := 64

/-- N_LIMIT: the largest bit count NORMALIZE admits (R8). -/
def nLimit : Nat := 64

/-- STATUS_LEN: the length of a status frame (R8). -/
def statusLen : Nat := 32

/-- RASTER_OP: the raster frame opcode byte (R8). -/
def rasterOp : Byte := 0x47

end Sys2Proof.Machine
end

