-- ==== Sys2Proof/Machine/Operands.lean ====
section
/-! DEFINITION. Operand and result forms: the integer and byte-sequence notation of 00_scope.md R10, R11 and the operand
assembly of 30_encoding.md R65. -/

namespace Sys2Proof.Machine

/-- `be(bs)`: the big-endian unsigned value of a byte sequence (R11). -/
def beValue (bs : List Byte) : Nat := bs.foldl (fun v b => v * 256 + b.toNat) 0

/-- `bytes_be(k, v)`: the k-byte sequence whose big-endian value is `v`, most significant byte first (R11). -/
def bytesBE : Nat → Nat → List Byte
  | 0, _ => []
  | k + 1, v => BitVec.ofNat 8 (v / 256 ^ k) :: bytesBE k v

/-- `sext_64(v)`: a 64-bit pattern read as a two's-complement integer (R11). -/
def sext64 (v : Nat) : Int := if v < 2 ^ 63 then (v : Int) else (v : Int) - 2 ^ 64

/-- NORMALIZE's operand and the status frame's last field: eight bytes, big-endian, signed (R42, R43, R65). -/
def signedBE (bs : List Byte) : Int := sext64 (beValue bs)

/-- A length as INFO records it: `min(L, 2^32 - 1)` (60_exceptions.md R181, R187). -/
def lengthInfo (len : Nat) : BitVec 32 := BitVec.ofNat 32 (min len (2 ^ 32 - 1))

/-- A byte as INFO records it (R181, R186). -/
def byteInfo (b : Byte) : BitVec 32 := b.setWidth 32

end Sys2Proof.Machine
end

