-- ==== Sys2Proof/Syntax.lean ====
section
/-! DEFINITION. The instructions: one constructor per row of spec/opcode_table.json. Eleven rows are command words
(30_encoding.md R62, R63); two are the header classes of a compressed line (R69), read by the spec's reference decoder
(41_compressor.md R120; log 1). -/

namespace Sys2Proof

/-- The seven control sequences, in selector order (R63). -/
inductive CtrlName where
  | getStatus | initialization | rasterMode | expandedMode | compressionMode | clearBuffer | pageFeed
deriving DecidableEq, Repr

/-- An instruction: an operation of the block with the operands of its command word, or a compressed line's header. -/
inductive Instr where
  /-- NORMALIZE, `n` = field A (R101). -/
  | normalize (n : Byte)
  /-- COMPRESS, threshold `t` = field A (R110). -/
  | compress (t : Byte)
  /-- CTRL with SEL = 0 (R142). -/
  | ctrlGetStatus
  /-- CTRL with SEL = 1 (R143). -/
  | ctrlInitialize
  /-- CTRL with SEL = 2 (R144). -/
  | ctrlRasterMode
  /-- CTRL with SEL = 3 (R145). -/
  | ctrlExpandedMode
  /-- CTRL with SEL = 4 (R146). -/
  | ctrlCompressionMode
  /-- CTRL with SEL = 5 (R147). -/
  | ctrlClearBuffer
  /-- CTRL with SEL = 6 (R148). -/
  | ctrlPageFeed
  /-- RASTER_FRAME, `n1` = field A, `n2` = field B (R149). -/
  | rasterFrame (n1 n2 : Byte)
  /-- DECODE_STATUS (R162). -/
  | decodeStatus
  /-- A literal header byte, 0x00-0x7F (R69). -/
  | litHeader (h : Byte)
  /-- A repeat header byte, 0x80-0xFF (R69). -/
  | repHeader (h : Byte)
deriving DecidableEq, Repr

/-- The two shapes an instruction's encoding has: a 32-bit command word (R60) or a header byte (R69). -/
inductive Encoding where
  | command (w : CmdWord)
  | header (h : Byte)
deriving DecidableEq, Repr

end Sys2Proof
end

