-- ==== Sys2Proof/Machine/State.lean ====
section
/-! DEFINITION. The state of the machine as plain data, and the state after reset (10_state.md). The block's own state is
`phase`, `work` and the responses not yet taken (R25, R28, R30). Beside it stand what the outside does (`script`,
`received`; log 2) and the spec's reference decoder (`active`, `reader`; 41_compressor.md R120; log 1). -/

namespace Sys2Proof.Machine

/-- A request (R24). -/
structure Request where
  cmd  : CmdWord
  args : List Byte
deriving DecidableEq, Repr

/-- The outcomes of 60_exceptions.md R181. The reserved codes 0x07-0xFF are never produced and have no constructor (log 9). -/
inductive Code where
  /-- 0x00, success. -/
  | ok
  /-- 0x01, DECODE_STATUS: a valid frame of an unmapped kind, not fatal (R183). -/
  | unrecognizedStatusKind
  /-- 0x02, DECODE_STATUS: the frame is not 32 bytes (R182). -/
  | frameLengthError
  /-- 0x03, reserved: never raised (R184). -/
  | segmentOverflowError
  /-- 0x04, a command word that selects no operation (R185). -/
  | illegalOperation
  /-- 0x05, NORMALIZE with n > 64 or COMPRESS with T > 64 (R186). -/
  | badOperand
  /-- 0x06, ARGS of a length the operation does not admit (R187). -/
  | argLengthError
deriving DecidableEq, Repr

/-- The classification of Status_Kind (43_status_decoder.md R161, R164). -/
inductive StatusKind where
  | replyToStatusRequest | printComplete | errorOccurred | reserved3 | reserved4 | notice | phaseChange
  | unrecognized (v : Byte)
deriving DecidableEq, Repr

/-- The status record REC: the 24 byte fields of R160 in frame order, the signed 64-bit Expansion (R163) and the
classification (R161). -/
structure StatusRecord where
  headMark         : Byte
  size             : Byte
  brotherCode      : Byte
  series           : Byte
  model            : Byte
  country          : Byte
  info             : Byte
  reserved         : Byte
  error1           : Byte
  error2           : Byte
  mediaWidth       : Byte
  mediaKind        : Byte
  nColors          : Byte
  font             : Byte
  nipponFont       : Byte
  mode             : Byte
  density          : Byte
  mediaLength      : Byte
  statusKind       : Byte
  phaseKind        : Byte
  phaseNumberUpper : Byte
  phaseNumberLower : Byte
  noticeNumber     : Byte
  reserved23       : Byte
  expansion        : Int
  kind             : StatusKind
deriving DecidableEq, Repr

/-- A response: CODE, DATA, REC and INFO (R24, R68). -/
structure Response where
  code   : Code
  data   : List Byte
  record : Option StatusRecord
  info   : BitVec 32
deriving DecidableEq, Repr

/-- The block's phase (R25). -/
inductive Phase where
  | idle
  | busy (req : Request)
deriving DecidableEq, Repr

/-- A maximal run of equal bytes of a scanline: value and length (41_compressor.md R111). -/
structure Run where
  value  : Byte
  length : Nat
deriving DecidableEq, Repr

/-- A segment: RepeatRun `Rep(v, c)` or LiteralRun `Lit(bs)` (R112). -/
inductive Segment where
  | rep (value : Byte) (count : Nat)
  | lit (bytes : List Byte)
deriving DecidableEq, Repr

/-- COMPRESS's working state: how many bytes of the line are taken in, the current run, the pending literal accumulator
and the segments produced so far (10_state.md R28). -/
structure CompressWork where
  consumed : Nat
  run      : Option Run
  acc      : List Byte
  segs     : List Segment
deriving DecidableEq, Repr

/-- The working state of the request being performed (R28): none, COMPRESS's, or the frame bytes DECODE_STATUS has
received so far. -/
inductive Work where
  | none
  | compressing (w : CompressWork)
  | receiving (bytes : List Byte)
deriving DecidableEq, Repr

/-- What the outside does next, and when the block's unobservable work advances (log 2). -/
inductive Event where
  /-- The host sends a request; it is accepted in IDLE only (R25). -/
  | send (req : Request)
  /-- The host takes the oldest response. -/
  | take
  /-- The host waits until the block is IDLE. -/
  | awaitIdle
  /-- Reset is asserted, whatever the phase (70_reset_and_hazards.md R211). -/
  | reset
  /-- The working state of the request being performed takes in one more byte (R28; log 3). -/
  | progress
  /-- The reference decoder is handed a compressed line (41_compressor.md R120; log 1). -/
  | readLine (line : List Byte)
deriving DecidableEq, Repr

/-- Who moves next: the block or the spec's reference decoder (log 1). -/
inductive Agent where
  | block | reader
deriving DecidableEq, Repr

/-- What the reference decoder has made of a line so far: segments, or MALFORMED (R120). -/
inductive ReadResult where
  | segments (segs : List Segment)
  | malformed
deriving DecidableEq, Repr

/-- The reference decoder: the bytes not read yet and the result so far (R120). -/
structure Reader where
  rest   : List Byte
  result : ReadResult
deriving DecidableEq, Repr

/-- The machine's state. -/
structure State where
  /-- IDLE or BUSY(req) (R25). -/
  phase     : Phase
  /-- The working state of the request being performed (R28). -/
  work      : Work
  /-- Responses returned and not yet taken by the host, oldest first (R30; log 7). -/
  responses : List Response
  /-- What is left of the host's program: no state of the block but a parameter of its moves (R29), kept here because a
  step's type takes the state alone; the model's own field (log 2, log 15). -/
  script    : List Event
  /-- Responses the host has taken, oldest first: the model's own field (log 12). -/
  received  : List Response
  /-- The agent that moves next: the model's own field (log 1). -/
  active    : Agent
  /-- The reference decoder: the model's own field (log 1). -/
  reader    : Reader
deriving DecidableEq, Repr

/-- Why the machine stops with a fault. The block itself has none: its errors are responses (R180, R191). -/
inductive Fault where
  /-- Raised by the meaning of a command word's operation when no request is held. SAFE: in IDLE no request is being
  performed (R25), so there is nothing to answer; no step raises it (log 6). -/
  | noRequest
deriving DecidableEq, Repr

/-- Why the machine refuses an instruction. -/
inductive Refusal where
  /-- Raised by exec's arm of an instruction that has no meaning yet. SAFE; no arm raises it. -/
  | notModelled (mnemonic : String)
deriving DecidableEq, Repr

/-- The machine right after reset (R30, R210): the block is IDLE, holds no working state and no response. The model's
own fields start empty, with the block to move (log 12). -/
def State.reset : State :=
  { phase := .idle, work := .none, responses := [], script := [], received := [], active := .block,
    reader := { rest := [], result := .segments [] } }

end Sys2Proof.Machine
end

