-- ==== Sys2Proof/Machine/Flags.lean ====
section
/-! DEFINITION. The block has no flags (10_state.md R22): "An operation's outcome is reported only in the CODE field of its
own response". This file holds what stands in their place: the byte of each code (60_exceptions.md R181) and the two forms
a response's outcome takes (00_scope.md R12). -/

namespace Sys2Proof.Machine

/-- The CODE byte of an outcome (R181). -/
def codeByte : Code → Byte
  | .ok => 0x00
  | .unrecognizedStatusKind => 0x01
  | .frameLengthError => 0x02
  | .segmentOverflowError => 0x03
  | .illegalOperation => 0x04
  | .badOperand => 0x05
  | .argLengthError => 0x06

/-- `ok(data)` = `respond(0x00, data, none, 0)` (R12). -/
def okResponse (data : List Byte) : Response := { code := .ok, data := data, record := none, info := 0 }

/-- `raise E(info)` = `respond(code(E), [], none, info)` (R12, R180). -/
def errorResponse (code : Code) (info : BitVec 32) : Response :=
  { code := code, data := [], record := none, info := info }

end Sys2Proof.Machine
end

