-- ==== Sys2Proof/Machine/Ops.lean ====
section
/-! DEFINITION. The shared operations over the state. The block has no memory and no registers (10_state.md R20,
20_memory.md R40): what an operation does to the state is to return the response of the request it performs. The block
has no trap either (60_exceptions.md R191): an error is a response too, and after it the block is IDLE (R180, R192). -/

namespace Sys2Proof.Machine

/-- Returning a response: the block is IDLE again, its working state is discarded, and the response waits for the host
behind the earlier ones (10_state.md R25, R28; 20_memory.md R53). -/
def respond (r : Response) (s : State) : State :=
  { s with phase := .idle, work := .none, responses := s.responses ++ [r] }

/-- An error ends the operation at once with an error response (60_exceptions.md R180); it is returned like any other
response, so the block is IDLE after it and takes the next request as normal (R192). -/
def raiseError (code : Code) (info : BitVec 32) (s : State) : State := respond (errorResponse code info) s

/-- An operation performed on the request the block holds: its response is a function of ARGS (R26). Without a request
there is nothing to perform (R25; log 6). -/
def answer (op : List Byte → Response) (s : State) : Host.Outcome State Fault Refusal :=
  match s.phase with
  | .busy req => .next (respond (op req.args) s)
  | .idle => .fault .noRequest

end Sys2Proof.Machine
end

