-- ==== Sys2Proof/Machine/CommandFramer.lean ====
section
/-! DEFINITION. The command framer: the seven CTRL operations and RASTER_FRAME (42_command_framer.md). -/

namespace Sys2Proof.Machine

/-- CTRLSEQ: the seven control sequences, literal constants (R140). -/
def ctrlSequence : CtrlName → List Byte
  | .getStatus => [0x1B, 0x69, 0x53]
  | .initialization => [0x1B, 0x40]
  | .rasterMode => [0x1B, 0x69, 0x61, 0x01]
  | .expandedMode => [0x1B, 0x69, 0x4B, 0x80]
  | .compressionMode => [0x4D, 0x02]
  | .clearBuffer => [0x5A, 0x5A, 0x5A, 0x5A, 0x5A, 0x5A]
  | .pageFeed => [0x0C]

/-- Ctrl_op (R141): ARGS must be empty. -/
def ctrlOp (c : CtrlName) (args : List Byte) : Response :=
  if args.length ≠ 0 then errorResponse .argLengthError (lengthInfo args.length) else okResponse (ctrlSequence c)

/-- CTRL_GET_STATUS (R142). -/
def execCtrlGetStatus (s : State) : Host.Outcome State Fault Refusal := answer (ctrlOp .getStatus) s

/-- CTRL_INITIALIZE (R143). -/
def execCtrlInitialize (s : State) : Host.Outcome State Fault Refusal := answer (ctrlOp .initialization) s

/-- CTRL_RASTER_MODE (R144). -/
def execCtrlRasterMode (s : State) : Host.Outcome State Fault Refusal := answer (ctrlOp .rasterMode) s

/-- CTRL_EXPANDED_MODE (R145). -/
def execCtrlExpandedMode (s : State) : Host.Outcome State Fault Refusal := answer (ctrlOp .expandedMode) s

/-- CTRL_COMPRESSION_MODE (R146). -/
def execCtrlCompressionMode (s : State) : Host.Outcome State Fault Refusal := answer (ctrlOp .compressionMode) s

/-- CTRL_CLEAR_BUFFER (R147). -/
def execCtrlClearBuffer (s : State) : Host.Outcome State Fault Refusal := answer (ctrlOp .clearBuffer) s

/-- CTRL_PAGE_FEED (R148). -/
def execCtrlPageFeed (s : State) : Host.Outcome State Fault Refusal := answer (ctrlOp .pageFeed) s

/-- RasterFrame_op (R149): the opcode byte, n1, n2 and the payload, nothing checked. -/
def rasterFrameOp (n1 n2 : Byte) (args : List Byte) : Response := okResponse (rasterOp :: n1 :: n2 :: args)

/-- RASTER_FRAME (R149). -/
def execRasterFrame (n1 n2 : Byte) (s : State) : Host.Outcome State Fault Refusal := answer (rasterFrameOp n1 n2) s

end Sys2Proof.Machine
end

