-- ==== Sys2Proof/Machine/RunCountCodec.lean ====
section
/-! DEFINITION. The two's-complement run-count codec: NORMALIZE (40_runcount_codec.md). -/

namespace Sys2Proof.Machine

/-- `normalize(value, n) = value mod 2^n`, with the non-negative remainder (R100). -/
def normalizeInt (value : Int) (n : Nat) : Nat := (value % 2 ^ n).toNat

/-- Normalize_op (R101): the bit count is checked before the argument length. -/
def normalizeOp (n : Byte) (args : List Byte) : Response :=
  if n.toNat > nLimit then errorResponse .badOperand (byteInfo n)
  else if args.length ≠ 8 then errorResponse .argLengthError (lengthInfo args.length)
  else okResponse (bytesBE 8 (normalizeInt (signedBE args) n.toNat))

/-- NORMALIZE (R101). -/
def execNormalize (n : Byte) (s : State) : Host.Outcome State Fault Refusal := answer (normalizeOp n) s

end Sys2Proof.Machine
end

