-- ==== Sys2Proof/Machine/Compressor.lean ====
section
/-! DEFINITION. The run-length compressor: COMPRESS (41_compressor.md), in the three passes of R110, and the one-pass form
over the working state of 10_state.md R28. -/

namespace Sys2Proof.Machine

/-- Adds one byte in front of a sequence of runs. -/
def consRun (b : Byte) : List Run → List Run
  | [] => [{ value := b, length := 1 }]
  | r :: rs =>
    if r.value = b then { value := b, length := r.length + 1 } :: rs
    else { value := b, length := 1 } :: r :: rs

/-- Pass 1, `runs(line)`: the maximal runs of equal bytes, in order (R111). -/
def runs : List Byte → List Run
  | [] => []
  | b :: bs => consRun b (runs bs)

/-- `repChunks(v, k, T)`: a run of `k` bytes as RepeatRuns of counts in [max(T, 1), 128]; a remainder shorter than T borrows
from the last full piece (R115). R115 requires `k ≥ T`, `k ≥ 1` and `T ≤ 64`: the callers' checks (R110) admit no other
operands. -/
def repChunks (v : Byte) (k t : Nat) : List Segment :=
  let q := k / repMax
  let r := k % repMax
  if k ≤ repMax then [.rep v k]
  else if r = 0 then List.replicate q (.rep v repMax)
  else if t ≤ r then List.replicate q (.rep v repMax) ++ [.rep v r]
  else List.replicate (q - 1) (.rep v repMax) ++ [.rep v (repMax - (t - r)), .rep v t]

/-- The loop of `litChunks`, with a bound on its rounds (R116). -/
def litChunksLoop : Nat → List Byte → List Segment
  | 0, acc => [.lit acc]
  | fuel + 1, acc =>
    if acc.length > litMax then .lit (acc.take litMax) :: litChunksLoop fuel (acc.drop litMax) else [.lit acc]

/-- `litChunks(acc)`: a non-empty accumulator as LiteralRuns of 128 bytes, the last one holding the rest (R116). Each round
takes bytes away, so the length bounds the rounds. -/
def litChunks (acc : List Byte) : List Segment := litChunksLoop acc.length acc

/-- Flushing the pending literal accumulator, which does nothing when it is empty (R113). -/
def flushLiterals (acc : List Byte) : List Segment := if acc = [] then [] else litChunks acc

/-- The walk of `segment` over the runs, with the pending literal accumulator (R113, R114). -/
def segmentFrom (t : Nat) (acc : List Byte) : List Run → List Segment
  | [] => flushLiterals acc
  | r :: rs =>
    if t ≤ r.length then flushLiterals acc ++ repChunks r.value r.length t ++ segmentFrom t [] rs
    else segmentFrom t (acc ++ List.replicate r.length r.value) rs

/-- Pass 2, `segment(rs, T)` (R113). -/
def segmentRuns (rs : List Run) (t : Nat) : List Segment := segmentFrom t [] rs

/-- The serialization of one segment: `normalize(-c, 8)` and the value, or the length minus one and the bytes (R118). -/
def serializeSegment : Segment → List Byte
  | .rep v c => [BitVec.ofNat 8 (normalizeInt (-(c : Int)) 8), v]
  | .lit bs => BitVec.ofNat 8 (bs.length - 1) :: bs

/-- Pass 3, `serialize(segs)` (R118). -/
def serialize (segs : List Segment) : List Byte := segs.flatMap serializeSegment

/-- `compress(line, T)` (R110). -/
def compress (line : List Byte) (t : Nat) : List Byte := serialize (segmentRuns (runs line) t)

/-- COMPRESS admits the threshold and the line's length, so that every operand of the passes is bounded
(40_runcount_codec.md R105): both checks of Compress_op pass (R110). -/
abbrev compressAdmits (t : Byte) (args : List Byte) : Prop := t.toNat ≤ tLimit ∧ args.length ≤ Config.wMax

/-- Compress_op (R110): the threshold is checked before the line's length. -/
def compressOp (t : Byte) (args : List Byte) : Response :=
  if t.toNat > tLimit then errorResponse .badOperand (byteInfo t)
  else if args.length > Config.wMax then errorResponse .argLengthError (lengthInfo args.length)
  else okResponse (compress args t.toNat)

/-- COMPRESS (R110). -/
def execCompress (t : Byte) (s : State) : Host.Outcome State Fault Refusal := answer (compressOp t) s

/-- The working state before the first byte of the line (10_state.md R28). -/
def startCompress : CompressWork := { consumed := 0, run := none, acc := [], segs := [] }

/-- The current run has ended: it becomes RepeatRuns, or its bytes join the accumulator (R113). -/
def closeRun (t : Nat) (w : CompressWork) (r : Run) : CompressWork :=
  if t ≤ r.length then
    { w with run := none, acc := [], segs := w.segs ++ flushLiterals w.acc ++ repChunks r.value r.length t }
  else { w with run := none, acc := w.acc ++ List.replicate r.length r.value }

/-- The working state takes in one byte: it extends the current run or ends it and begins another (R28, R124). -/
def takeByte (t : Nat) (w : CompressWork) (b : Byte) : CompressWork :=
  match w.run with
  | none => { w with consumed := w.consumed + 1, run := some { value := b, length := 1 } }
  | some r =>
    if r.value = b then { w with consumed := w.consumed + 1, run := some { r with length := r.length + 1 } }
    else { closeRun t w r with consumed := w.consumed + 1, run := some { value := b, length := 1 } }

/-- The segments once the line has ended: the current run is closed and the accumulator flushed (R113). -/
def finishCompress (t : Nat) (w : CompressWork) : List Segment :=
  let closed := match w.run with
    | none => w
    | some r => closeRun t w r
  closed.segs ++ flushLiterals closed.acc

/-- The three passes fused into one walk over the line (R124: "three conceptual passes, may be fused"). -/
def compressFused (line : List Byte) (t : Nat) : List Byte :=
  serialize (finishCompress t (line.foldl (takeByte t) startCompress))

end Sys2Proof.Machine
end

