-- ==== Sys2Proof/Machine/ReferenceDecoder.lean ====
section
/-! DEFINITION. The spec's reference decoder of a compressed line (30_encoding.md R69, 41_compressor.md R120, R121), and with
it the meanings of the two header rows: one round of `parse`'s loop each. "The block does not perform it" (R120): these
meanings act on `reader` alone (log 1). -/

namespace Sys2Proof.Machine

/-- A literal segment at the front of `bs`, and the bytes behind it; none where `bs` is truncated (R120, first branch). -/
def takeLiteral (h : Byte) (bs : List Byte) : Option (Segment × List Byte) :=
  if h.toNat + 2 > bs.length then none
  else some (.lit ((bs.drop 1).take (h.toNat + 1)), bs.drop (h.toNat + 2))

/-- A repeat segment at the front of `bs`, and the bytes behind it; none where `bs` is truncated (R120, second branch). -/
def takeRepeat (h : Byte) (bs : List Byte) : Option (Segment × List Byte) :=
  if 2 > bs.length then none else some (.rep (bs.getD 1 0) (256 - h.toNat), bs.drop 2)

/-- The segment a header byte opens: bit 7 of the header decides (R69). -/
def takeSegment (h : Byte) (bs : List Byte) : Option (Segment × List Byte) :=
  if h ≤ 0x7F#8 then takeLiteral h bs else takeRepeat h bs

/-- One more segment behind the result so far (R120). -/
def appendSegment : ReadResult → Segment → ReadResult
  | .segments segs, seg => .segments (segs ++ [seg])
  | .malformed, _ => .malformed

/-- The loop of `parse`, with a bound on its rounds (R120). -/
def parseLoop : Nat → List Byte → List Segment → ReadResult
  | _, [], segs => .segments segs
  | 0, _ :: _, _ => .malformed
  | fuel + 1, h :: bs, segs =>
    match takeSegment h (h :: bs) with
    | none => .malformed
    | some (seg, rest) => parseLoop fuel rest (segs ++ [seg])

/-- `parse(bs)` (R120). Each round takes bytes away, so the length bounds the rounds. -/
def parse (bs : List Byte) : ReadResult := parseLoop bs.length bs []

/-- The bytes a segment stands for (R121). -/
def expandSegment : Segment → List Byte
  | .rep v c => List.replicate c v
  | .lit bs => bs

/-- `expand(segs)` (R121). -/
def expand (segs : List Segment) : List Byte := segs.flatMap expandSegment

/-- The reference decoder after one round: a segment read, or MALFORMED, which ends the reading (R120). -/
def readSegment (found : Option (Segment × List Byte)) (s : State) : State :=
  match found with
  | none => { s with reader := { rest := [], result := .malformed } }
  | some (seg, rest) => { s with reader := { rest := rest, result := appendSegment s.reader.result seg } }

/-- LIT_HEADER: the next `h + 1` bytes are literal line bytes (R69, R120). -/
def execLitHeader (h : Byte) (s : State) : Host.Outcome State Fault Refusal :=
  .next (readSegment (takeLiteral h s.reader.rest) s)

/-- REP_HEADER: the next byte is repeated `256 - h` times (R69, R120). -/
def execRepHeader (h : Byte) (s : State) : Host.Outcome State Fault Refusal :=
  .next (readSegment (takeRepeat h s.reader.rest) s)

end Sys2Proof.Machine
end

