-- ==== Sys2Proof/Machine/StatusDecoder.lean ====
section
/-! DEFINITION. The status frame decoder: DECODE_STATUS (43_status_decoder.md). -/

namespace Sys2Proof.Machine

/-- `classify(k)` for the Status_Kind byte (R164). -/
def classify (k : Byte) : StatusKind :=
  match k.toNat with
  | 0 => .replyToStatusRequest
  | 1 => .printComplete
  | 2 => .errorOccurred
  | 3 => .reserved3
  | 4 => .reserved4
  | 5 => .notice
  | 6 => .phaseChange
  | _ => .unrecognized k

/-- Byte `i` of a frame; every index used is below 32, the length checked before (R162). -/
def frameByte (bs : List Byte) (i : Nat) : Byte := bs.getD i 0

/-- `decodeFrame(bs)`: the fields in the frame order of R160, Expansion by R163, Kind by R164 (R162). -/
def decodeFrame (bs : List Byte) : StatusRecord :=
  { headMark := frameByte bs 0, size := frameByte bs 1, brotherCode := frameByte bs 2, series := frameByte bs 3,
    model := frameByte bs 4, country := frameByte bs 5, info := frameByte bs 6, reserved := frameByte bs 7,
    error1 := frameByte bs 8, error2 := frameByte bs 9, mediaWidth := frameByte bs 10, mediaKind := frameByte bs 11,
    nColors := frameByte bs 12, font := frameByte bs 13, nipponFont := frameByte bs 14, mode := frameByte bs 15,
    density := frameByte bs 16, mediaLength := frameByte bs 17, statusKind := frameByte bs 18,
    phaseKind := frameByte bs 19, phaseNumberUpper := frameByte bs 20, phaseNumberLower := frameByte bs 21,
    noticeNumber := frameByte bs 22, reserved23 := frameByte bs 23,
    expansion := signedBE ((bs.drop 24).take 8), kind := classify (frameByte bs 18) }

/-- The response to a frame of the right length: an unmapped kind is reported with the record, not fatal (R162, R165). -/
def recordResponse (rec : StatusRecord) : Response :=
  match rec.kind with
  | .unrecognized v => { code := .unrecognizedStatusKind, data := [], record := some rec, info := byteInfo v }
  | _ => { code := .ok, data := [], record := some rec, info := 0 }

/-- DecodeStatus_op (R162). -/
def decodeStatusOp (args : List Byte) : Response :=
  if args.length ≠ statusLen then errorResponse .frameLengthError (lengthInfo args.length)
  else recordResponse (decodeFrame args)

/-- DECODE_STATUS (R162). -/
def execDecodeStatus (s : State) : Host.Outcome State Fault Refusal := answer decodeStatusOp s

end Sys2Proof.Machine
end

