-- ==== Sys2Proof/Machine/Dispatch.lean ====
section
/-! DEFINITION. exec: one arm per instruction, each one call of its meaning. -/

namespace Sys2Proof.Machine

def exec (i : Instr) (s : State) : Host.Outcome State Fault Refusal :=
  match i with
  | .normalize n => Sys2Proof.Machine.execNormalize n s
  | .compress t => Sys2Proof.Machine.execCompress t s
  | .ctrlGetStatus => Sys2Proof.Machine.execCtrlGetStatus s
  | .ctrlInitialize => Sys2Proof.Machine.execCtrlInitialize s
  | .ctrlRasterMode => Sys2Proof.Machine.execCtrlRasterMode s
  | .ctrlExpandedMode => Sys2Proof.Machine.execCtrlExpandedMode s
  | .ctrlCompressionMode => Sys2Proof.Machine.execCtrlCompressionMode s
  | .ctrlClearBuffer => Sys2Proof.Machine.execCtrlClearBuffer s
  | .ctrlPageFeed => Sys2Proof.Machine.execCtrlPageFeed s
  | .rasterFrame n1 n2 => Sys2Proof.Machine.execRasterFrame n1 n2 s
  | .decodeStatus => Sys2Proof.Machine.execDecodeStatus s
  | .litHeader h => Sys2Proof.Machine.execLitHeader h s
  | .repHeader h => Sys2Proof.Machine.execRepHeader h s

end Sys2Proof.Machine
end

