-- ==== Sys2Proof/WellFormed.lean ====
section
/-! DEFINITION. Which instructions have an encoding. The operand fields A and B take every value (30_encoding.md R64:
NORMALIZE's n and COMPRESS's T are "any value", checked when the operation is performed), so the two checks are those
of the header rows: bit 7 tells them apart (R69). -/

namespace Sys2Proof

/-- A literal header is 0x00-0x7F and a repeat header 0x80-0xFF (R69); every other instruction is well formed (R64). -/
def Instr.wellFormed : Instr → Bool
  | .normalize _ => true
  | .compress _ => true
  | .ctrlGetStatus => true
  | .ctrlInitialize => true
  | .ctrlRasterMode => true
  | .ctrlExpandedMode => true
  | .ctrlCompressionMode => true
  | .ctrlClearBuffer => true
  | .ctrlPageFeed => true
  | .rasterFrame _ _ => true
  | .decodeStatus => true
  | .litHeader h => decide (h ≤ 0x7F#8)
  | .repHeader h => decide (0x80#8 ≤ h)

end Sys2Proof
end

