-- ==== Sys2Proof/Decode.lean ====
section
/-! DEFINITION. The fields of a command word (30_encoding.md R60), its decoding (R66, R67), the reading of a header byte
(R69), and the encoder written from the same tables (R62-R64, R69). -/

namespace Sys2Proof

/-- OP = CMD[3:0] (R60). -/
def cmdOp (w : CmdWord) : BitVec 4 := w.extractLsb' 0 4

/-- SEL = CMD[7:4] (R60). -/
def cmdSel (w : CmdWord) : BitVec 4 := w.extractLsb' 4 4

/-- A = CMD[15:8] (R60). -/
def cmdA (w : CmdWord) : Byte := w.extractLsb' 8 8

/-- B = CMD[23:16] (R60). -/
def cmdB (w : CmdWord) : Byte := w.extractLsb' 16 8

/-- RSV = CMD[31:24] (R60). -/
def cmdRsv (w : CmdWord) : Byte := w.extractLsb' 24 8

/-- The command word with the fields OP, SEL, A, B and RSV = 0 (R60). -/
def cmdWord (op sel : BitVec 4) (a b : Byte) : CmdWord := 0#8 ++ b ++ a ++ sel ++ op

/-- Why a command word is rejected: it selects no operation (R67). It carries the word (R185). -/
inductive DecodeError where
  | illegalOperation (w : CmdWord)
deriving DecidableEq, Repr

/-- The control sequence a selector names; 7-15 are reserved (R63, R67). -/
def ctrlOfSelector (sel : BitVec 4) : Option CtrlName :=
  match sel.toNat with
  | 0 => some .getStatus
  | 1 => some .initialization
  | 2 => some .rasterMode
  | 3 => some .expandedMode
  | 4 => some .compressionMode
  | 5 => some .clearBuffer
  | 6 => some .pageFeed
  | _ => none

/-- The selector of a control sequence (R63). -/
def selectorOfCtrl : CtrlName → BitVec 4
  | .getStatus => 0
  | .initialization => 1
  | .rasterMode => 2
  | .expandedMode => 3
  | .compressionMode => 4
  | .clearBuffer => 5
  | .pageFeed => 6

/-- The instruction that returns a control sequence (opcode table, rows CTRL_*). -/
def instrOfCtrl : CtrlName → Instr
  | .getStatus => .ctrlGetStatus
  | .initialization => .ctrlInitialize
  | .rasterMode => .ctrlRasterMode
  | .expandedMode => .ctrlExpandedMode
  | .compressionMode => .ctrlCompressionMode
  | .clearBuffer => .ctrlClearBuffer
  | .pageFeed => .ctrlPageFeed

/-- CTRL's row of R66: a selector 0-6 and both operand fields 0. -/
def decodeCtrl (w : CmdWord) : Except DecodeError Instr :=
  match ctrlOfSelector (cmdSel w) with
  | some c => if cmdA w = 0 ∧ cmdB w = 0 then .ok (instrOfCtrl c) else .error (.illegalOperation w)
  | none => .error (.illegalOperation w)

/-- Decode(CMD) of R66: total on all 2^32 words; it selects one operation or rejects the word by name. -/
def decodeCmd (w : CmdWord) : Except DecodeError Instr :=
  if cmdRsv w ≠ 0 then .error (.illegalOperation w)
  else if cmdOp w = 0x0 ∧ cmdSel w = 0 ∧ cmdB w = 0 then .ok (.normalize (cmdA w))
  else if cmdOp w = 0x1 ∧ cmdSel w = 0 ∧ cmdB w = 0 then .ok (.compress (cmdA w))
  else if cmdOp w = 0x2 then decodeCtrl w
  else if cmdOp w = 0x3 ∧ cmdSel w = 0 then .ok (.rasterFrame (cmdA w) (cmdB w))
  else if cmdOp w = 0x4 ∧ cmdSel w = 0 ∧ cmdA w = 0 ∧ cmdB w = 0 then .ok .decodeStatus
  else .error (.illegalOperation w)

/-- The header row a byte of a compressed line belongs to: bit 7 decides (R69). -/
def decodeHeader (h : Byte) : Instr := if h ≤ 0x7F#8 then .litHeader h else .repHeader h

/-- The decoder: a command word (R66) or a header byte (R69). -/
def decode : Encoding → Except DecodeError Instr
  | .command w => decodeCmd w
  | .header h => .ok (decodeHeader h)

/-- The encoder, from the tables of R62-R64 (command words) and R69 (header bytes). -/
def encode : Instr → Encoding
  | .normalize n => .command (cmdWord 0x0 0 n 0)
  | .compress t => .command (cmdWord 0x1 0 t 0)
  | .ctrlGetStatus => .command (cmdWord 0x2 (selectorOfCtrl .getStatus) 0 0)
  | .ctrlInitialize => .command (cmdWord 0x2 (selectorOfCtrl .initialization) 0 0)
  | .ctrlRasterMode => .command (cmdWord 0x2 (selectorOfCtrl .rasterMode) 0 0)
  | .ctrlExpandedMode => .command (cmdWord 0x2 (selectorOfCtrl .expandedMode) 0 0)
  | .ctrlCompressionMode => .command (cmdWord 0x2 (selectorOfCtrl .compressionMode) 0 0)
  | .ctrlClearBuffer => .command (cmdWord 0x2 (selectorOfCtrl .clearBuffer) 0 0)
  | .ctrlPageFeed => .command (cmdWord 0x2 (selectorOfCtrl .pageFeed) 0 0)
  | .rasterFrame n1 n2 => .command (cmdWord 0x3 0 n1 n2)
  | .decodeStatus => .command (cmdWord 0x4 0 0 0)
  | .litHeader h => .header h
  | .repHeader h => .header h

/-- The instruction the decoder reads from a table row's word: rows of 32 bits are command words, rows of 8 bits header
bytes (opcode_table.json, formats cmd32 and compressed_line_header8). A command word is one 32-bit number at the
transaction interface, so no byte order enters (R60; log 8). -/
def decodeTableWord (nbits w : Nat) : Option Instr :=
  if 2 ^ nbits ≤ w then none
  else if nbits = 32 then (decode (.command (BitVec.ofNat 32 w))).toOption
  else if nbits = 8 then (decode (.header (BitVec.ofNat 8 w))).toOption
  else none

end Sys2Proof
end

