-- ==== Sys2Proof/Machine/Interface.lean ====
section
/-! DEFINITION. The request/response interface at transaction level (10_state.md R24, R25), reset
(70_reset_and_hazards.md R211) and the choice of what moves next (log 2). The block fetches no stored program (R21): the
instruction it runs is the command word of the request it holds. -/

namespace Sys2Proof.Machine

/-- Reset: the request being performed, its working state and the responses not yet taken are discarded, and the block is
IDLE (R211). The host and the reference decoder are outside the block (log 11). -/
def resetBlock (s : State) : State := { s with phase := .idle, work := .none, responses := [] }

/-- The block accepts a request: BUSY(req), with no working state yet (R25). -/
def acceptRequest (req : Request) (s : State) : State := { s with phase := .busy req, work := .none }

/-- COMPRESS's working state after one more byte of the line (R28). -/
def advanceCompress (t : Nat) (scanline : List Byte) (work : Work) : Work :=
  let w := match work with
    | .compressing w => w
    | _ => startCompress
  match scanline[w.consumed]? with
  | some b => .compressing (takeByte t w b)
  | none => .compressing w

/-- DECODE_STATUS's working state after one more byte of the frame (R28). -/
def advanceStatus (frame : List Byte) (work : Work) : Work :=
  let received := match work with
    | .receiving bytes => bytes
    | _ => []
  match frame[received.length]? with
  | some b => .receiving (received ++ [b])
  | none => .receiving received

/-- The working state of the request being performed takes in one more byte; only COMPRESS and DECODE_STATUS have one
(R28; log 3). A COMPRESS request that Compress_op turns away never gets one: its checks come before the passes
(41_compressor.md R110), whose operands are bounded (40_runcount_codec.md R105). -/
def advanceWork (s : State) : State :=
  match s.phase with
  | .idle => s
  | .busy req =>
    match decodeCmd req.cmd with
    | .ok (.compress t) =>
      if compressAdmits t req.args then { s with work := advanceCompress t.toNat req.args s.work } else s
    | .ok .decodeStatus => { s with work := advanceStatus req.args s.work }
    | _ => s

/-- What the machine does next: it runs an instruction, or it moves to a state without running one. -/
inductive Fetched where
  | run (i : Instr)
  | moved (t : State)
deriving DecidableEq, Repr

/-- The request the block holds is performed: its command word selects the operation, or is rejected with
ILLEGAL_OPERATION and no operation's rule runs (30_encoding.md R66, 60_exceptions.md R185). -/
def fetchRequest (req : Request) (s : State) : Fetched :=
  match decodeCmd req.cmd with
  | .ok i => .run i
  | .error (.illegalOperation w) => .moved (raiseError .illegalOperation w s)

/-- The block performs the request it holds; in IDLE the machine moves to `otherwise`. -/
def performOr (otherwise s : State) : Fetched :=
  match s.phase with
  | .busy req => fetchRequest req s
  | .idle => .moved otherwise

/-- The block's next move, by the next event of the host's program, which is a parameter (R29; log 2, log 15). Reset acts in every phase (R211); a request is
accepted in IDLE only, so in BUSY the block first performs the one it holds (R25); the oldest response is taken first
(R53; log 12). -/
def blockFetch (program : List Event) (s : State) : Fetched :=
  match program with
  | [] => performOr s s
  | .send req :: rest => performOr (acceptRequest req { s with script := rest }) s
  | .take :: rest =>
    match s.responses with
    | r :: rs => .moved { s with script := rest, responses := rs, received := s.received ++ [r] }
    | [] => performOr { s with script := rest } s
  | .awaitIdle :: rest => performOr { s with script := rest } s
  | .reset :: rest => .moved (resetBlock { s with script := rest })
  | .progress :: rest => .moved (advanceWork { s with script := rest })
  | .readLine line :: rest =>
    performOr { s with script := rest, active := .reader, reader := { rest := line, result := .segments [] } } s

/-- The reference decoder's next move: the header at the front of what it has not read, or the end of the line
(41_compressor.md R120; log 1). -/
def readerFetch (s : State) : Fetched :=
  match s.reader.rest with
  | h :: _ => .run (decodeHeader h)
  | [] => .moved { s with active := .block }

/-- What the machine does next: the block moves by what is left of the host's program (log 15). -/
def fetch (s : State) : Fetched :=
  match s.active with
  | .block => blockFetch s.script s
  | .reader => readerFetch s

/-- A script whose next event leaves the block to perform the request it holds: the host waits first where it would
otherwise reset the block, let the work advance or take a response (log 5). -/
def unpreempted (script : List Event) : List Event :=
  match script with
  | .reset :: _ => .awaitIdle :: script
  | .progress :: _ => .awaitIdle :: script
  | .take :: _ => .awaitIdle :: script
  | _ => script

/-- The block holds a request of command word `w` with no argument bytes, and performs it next (log 5). -/
def holdCommand (w : CmdWord) (s : State) : State :=
  { acceptRequest { cmd := w, args := [] } s with active := .block, script := unpreempted s.script }

/-- The reference decoder has a line of header `h` and as many zero bytes as the longest segment needs, and reads it next
(log 5). -/
def holdHeader (h : Byte) (s : State) : State :=
  { s with active := .reader, reader := { rest := h :: List.replicate 128 0, result := .segments [] } }

end Sys2Proof.Machine
end

