-- ==== Sys2Proof/Machine/Step.lean ====
section
/-! DEFINITION. One step of the machine: an instruction performed, or a move of the interface (10_state.md R25). -/

namespace Sys2Proof.Machine

/-- One step. -/
def step (s : State) : Host.Outcome State Fault Refusal :=
  match fetch s with
  | .run i => exec i s
  | .moved t => .next t

/-- The state in which the next step runs the instruction of the opcode table whose word is `w`: a row of 32 bits is a
command word the block holds, a row of 8 bits a header the reference decoder reads next (log 5). -/
def State.withFetchWord (s : State) (nbits w : Nat) : State :=
  if nbits = 32 then holdCommand (BitVec.ofNat 32 w) s
  else if nbits = 8 then holdHeader (BitVec.ofNat 8 w) s
  else s

end Sys2Proof.Machine
end

