-- ==== Sys2Proof/Machine/Assembler.lean ====
section
/-! DEFINITION. The textual form of requests (30_encoding.md R72-R74): a line is cut into tokens, parsed to a form, and
assembled to a request. White space, letter case and the spelling of numbers, which R72 leaves open, are log 10. -/

namespace Sys2Proof.Machine

/-- A token of an assembler line. -/
inductive Token where
  | word (cs : List Char)
  | comma
  | openBracket
  | closeBracket
deriving DecidableEq, Repr

/-- The forms of R72 and the two pseudo-instructions of R73. -/
inductive AsmForm where
  | normalize (n : Nat) (value : Int)
  | compress (t : Nat) (bytes : List Byte)
  | ctrl (name : CtrlName)
  | raster (n1 n2 : Nat) (bytes : List Byte)
  | decodeFrame (bytes : List Byte)
  | compressDefault (bytes : List Byte)
  | rasterc (bytes : List Byte)
deriving DecidableEq, Repr

/-- What one line of text gives: nothing (an empty line or a comment), a request, or an assembler error (R72). -/
inductive AsmResult where
  | blank
  | request (r : Request)
  | error
deriving DecidableEq, Repr

/-- The pending word of the tokenizer, collected in reverse, before the tokens that follow it. -/
def flushWord (pending : List Char) (rest : List Token) : List Token :=
  if pending = [] then rest else .word pending.reverse :: rest

/-- The tokens of a line; `;` starts a comment that runs to its end (R72). -/
def tokens (pending : List Char) : List Char → List Token
  | [] => flushWord pending []
  | c :: cs =>
    if c = ';' then flushWord pending []
    else if c = ' ' ∨ c = '\t' then flushWord pending (tokens [] cs)
    else if c = ',' then flushWord pending (.comma :: tokens [] cs)
    else if c = '[' then flushWord pending (.openBracket :: tokens [] cs)
    else if c = ']' then flushWord pending (.closeBracket :: tokens [] cs)
    else tokens (c :: pending) cs

/-- A decimal digit's value. -/
def decDigit (c : Char) : Option Nat := if '0' ≤ c ∧ c ≤ '9' then some (c.toNat - '0'.toNat) else none

/-- A hexadecimal digit's value, in either letter case (log 10). -/
def hexDigit (c : Char) : Option Nat :=
  if 'a' ≤ c ∧ c ≤ 'f' then some (c.toNat - 'a'.toNat + 10)
  else if 'A' ≤ c ∧ c ≤ 'F' then some (c.toNat - 'A'.toNat + 10)
  else decDigit c

/-- Digits of a base read from the left behind a value. Leading zeros are admitted, in any number: the model's choice
(log 10). -/
def digitsFrom (digit : Char → Option Nat) (base v : Nat) : List Char → Option Nat
  | [] => some v
  | c :: cs =>
    match digit c with
    | some d => digitsFrom digit base (v * base + d) cs
    | none => none

/-- An unsigned number: decimal digits, or `0x` and hexadecimal digits (R9, R72; log 10). -/
def parseNat : List Char → Option Nat
  | [] => none
  | '0' :: 'x' :: c :: cs => digitsFrom hexDigit 16 0 (c :: cs)
  | c :: cs => digitsFrom decDigit 10 0 (c :: cs)

/-- NORMALIZE's value: a signed decimal, or `0x` hexadecimal (R72). That the decimal may have leading zeros (`-05`) is the
model's choice (log 10). -/
def parseInt : List Char → Option Int
  | '-' :: c :: cs => (digitsFrom decDigit 10 0 (c :: cs)).map fun v => -(v : Int)
  | cs => (parseNat cs).map fun v => (v : Int)

/-- A byte of a byte list: decimal 0-255, or `0x` followed by two hex digits (R72). That the decimal may have leading zeros
(`007`) is the model's choice (log 10). -/
def parseByte : List Char → Option Byte
  | ['0', 'x', a, b] => (digitsFrom hexDigit 16 0 [a, b]).map (BitVec.ofNat 8)
  | '0' :: 'x' :: _ => none
  | [] => none
  | c :: cs =>
    match digitsFrom decDigit 10 0 (c :: cs) with
    | some v => if v ≤ 255 then some (BitVec.ofNat 8 v) else none
    | none => none

/-- The bytes of a non-empty byte list and its closing bracket, which ends the line (R72). -/
def parseItems : List Token → Option (List Byte)
  | [.word w, .closeBracket] => (parseByte w).map fun b => [b]
  | .word w :: .comma :: rest =>
    match parseByte w, parseItems rest with
    | some b, some bs => some (b :: bs)
    | _, _ => none
  | _ => none

/-- A byte list at the end of a line (R72); `[]` is empty. -/
def parseByteList : List Token → Option (List Byte)
  | [.openBracket, .closeBracket] => some []
  | .openBracket :: rest => parseItems rest
  | _ => none

/-- The control sequence an assembler name names (R63). -/
def ctrlOfName (w : List Char) : Option CtrlName :=
  if w = "get_status".toList then some .getStatus
  else if w = "initialize".toList then some .initialization
  else if w = "raster_mode".toList then some .rasterMode
  else if w = "expanded_mode".toList then some .expandedMode
  else if w = "compression_mode".toList then some .compressionMode
  else if w = "clear_buffer".toList then some .clearBuffer
  else if w = "page_feed".toList then some .pageFeed
  else none

/-- The operands of NORMALIZE: `<n>, <value>` (R72). -/
def parseNormalize : List Token → Option AsmForm
  | [.word n, .comma, .word v] =>
    match parseNat n, parseInt v with
    | some n, some v => some (.normalize n v)
    | _, _ => none
  | _ => none

/-- The operands of COMPRESS: `<t>, <byte list>` (R72), or a byte list alone (R73). -/
def parseCompress : List Token → Option AsmForm
  | .word t :: .comma :: rest =>
    match parseNat t, parseByteList rest with
    | some t, some bs => some (.compress t bs)
    | _, _ => none
  | ts => (parseByteList ts).map .compressDefault

/-- The operand of CTRL: `<name>` (R72). -/
def parseCtrl : List Token → Option AsmForm
  | [.word w] => (ctrlOfName w).map .ctrl
  | _ => none

/-- The operands of RASTER: `<n1>, <n2>, <byte list>` (R72). -/
def parseRaster : List Token → Option AsmForm
  | .word n1 :: .comma :: .word n2 :: .comma :: rest =>
    match parseNat n1, parseNat n2, parseByteList rest with
    | some n1, some n2, some bs => some (.raster n1 n2 bs)
    | _, _, _ => none
  | _ => none

/-- The form a line's tokens spell (R72, R73). -/
def parseForm : List Token → Option AsmForm
  | .word w :: rest =>
    if w = "NORMALIZE".toList then parseNormalize rest
    else if w = "COMPRESS".toList then parseCompress rest
    else if w = "CTRL".toList then parseCtrl rest
    else if w = "RASTER".toList then parseRaster rest
    else if w = "RASTERC".toList then (parseByteList rest).map .rasterc
    else if w = "DECODE".toList then (parseByteList rest).map .decodeFrame
    else none
  | _ => none

/-- NORMALIZE's request: n in 0-255 and value in [-2^63, 2^63-1], as 8 bytes, two's complement, big-endian (R72). -/
def assembleNormalize (n : Nat) (value : Int) : Option Request :=
  if n ≤ 255 ∧ -2 ^ 63 ≤ value ∧ value ≤ 2 ^ 63 - 1 then
    some { cmd := cmdWord 0x0 0 (BitVec.ofNat 8 n) 0, args := bytesBE 8 (value % 2 ^ 64).toNat }
  else none

/-- COMPRESS's request: t in 0-255 (R72). -/
def assembleCompress (t : Nat) (bytes : List Byte) : Option Request :=
  if t ≤ 255 then some { cmd := cmdWord 0x1 0 (BitVec.ofNat 8 t) 0, args := bytes } else none

/-- RASTER's request: n1 and n2 in 0-255 (R72). -/
def assembleRaster (n1 n2 : Nat) (bytes : List Byte) : Option Request :=
  if n1 ≤ 255 ∧ n2 ≤ 255 then
    some { cmd := cmdWord 0x3 0 (BitVec.ofNat 8 n1) (BitVec.ofNat 8 n2), args := bytes }
  else none

/-- The request a form assembles to; none is an assembler error (R72). The pseudo-instructions expand by R73. -/
def assembleForm : AsmForm → Option Request
  | .normalize n value => assembleNormalize n value
  | .compress t bytes => assembleCompress t bytes
  | .ctrl name => some { cmd := cmdWord 0x2 (selectorOfCtrl name) 0 0, args := [] }
  | .raster n1 n2 bytes => assembleRaster n1 n2 bytes
  | .decodeFrame bytes => some { cmd := cmdWord 0x4 0 0 0, args := bytes }
  | .compressDefault bytes => assembleCompress tDefault bytes
  | .rasterc bytes => assembleRaster bytes.length 0 bytes

/-- One line of assembler text (R72). -/
def assembleLine (text : String) : AsmResult :=
  match tokens [] text.toList with
  | [] => .blank
  | ts =>
    match (parseForm ts).bind assembleForm with
    | some r => .request r
    | none => .error

/-- A program: the requests of its lines in order, blank lines left out (R72). R72 speaks of single lines: that a program with
a line that is an assembler error gives no request at all is the model's choice (log 10). -/
def assembleProgram : List String → Option (List Request)
  | [] => some []
  | text :: texts =>
    match assembleLine text, assembleProgram texts with
    | .blank, rest => rest
    | .request r, some rs => some (r :: rs)
    | .request _, none => none
    | .error, _ => none

end Sys2Proof.Machine
end

