-- ==== Sys2Proof/Machine/HostJob.lean ====
section
/-! DEFINITION. The host's job, which 10_state.md R29 takes out of the block's state and makes a parameter: the sequence of
what the host does (the "program") and the scanline width `width_bytes`. How the program reaches a step, whose type
is the host's, is log 15. -/

namespace Sys2Proof.Machine

/-- The host's job (R29): `width_bytes`, the length of its scanlines in bytes, and its program. `width_bytes` "is not a
parameter of the block" (00_scope.md section 3): no operation reads it. -/
structure HostJob where
  widthBytes : Nat
  program    : List Event
deriving DecidableEq, Repr

/-- The machine at the start of a job: what the outside does from here on is the job's program (R29; log 15). -/
def State.withJob (s : State) (job : HostJob) : State := { s with script := job.program }

/-- A request keeps to the job's scanline width: a COMPRESS request sends exactly one scanline (70_reset_and_hazards.md
R216). -/
def requestKeepsWidth (widthBytes : Nat) (req : Request) : Bool :=
  match decodeCmd req.cmd with
  | .ok (.compress _) => req.args.length == widthBytes
  | _ => true

/-- The host's duty of R216, which the block does not check (R214): every COMPRESS request of the job sends a whole
scanline. -/
def HostJob.sendsWholeScanlines (job : HostJob) : Bool :=
  job.program.all fun e =>
    match e with
    | .send req => requestKeepsWidth job.widthBytes req
    | _ => true

end Sys2Proof.Machine
end

