-- ==== Sys2Proof/Machine/Perform.lean ====
section
/-! DEFINITION. `Perform(CMD, ARGS)` as the spec writes it (10_state.md R26): the function of the request alone that the
machine's runs are held against. -/

namespace Sys2Proof.Machine

/-- The response of a decoded operation. The header rows are no operation of the block, and no command word decodes to one;
a word that selects no operation is ILLEGAL_OPERATION (R66, R67). -/
def operationResponse (i : Instr) (req : Request) : Response :=
  match i with
  | .normalize n => normalizeOp n req.args
  | .compress t => compressOp t req.args
  | .ctrlGetStatus => ctrlOp .getStatus req.args
  | .ctrlInitialize => ctrlOp .initialization req.args
  | .ctrlRasterMode => ctrlOp .rasterMode req.args
  | .ctrlExpandedMode => ctrlOp .expandedMode req.args
  | .ctrlCompressionMode => ctrlOp .compressionMode req.args
  | .ctrlClearBuffer => ctrlOp .clearBuffer req.args
  | .ctrlPageFeed => ctrlOp .pageFeed req.args
  | .rasterFrame n1 n2 => rasterFrameOp n1 n2 req.args
  | .decodeStatus => decodeStatusOp req.args
  | .litHeader _ => errorResponse .illegalOperation req.cmd
  | .repHeader _ => errorResponse .illegalOperation req.cmd

/-- `Perform(CMD, ARGS)` (R26). -/
def perform (req : Request) : Response :=
  match decodeCmd req.cmd with
  | .ok i => operationResponse i req
  | .error (.illegalOperation w) => errorResponse .illegalOperation w

end Sys2Proof.Machine
end

