-- ==== Sys2Proof/Safety.lean ====
section
/-! DEFINITION. What counts as a good state and a safe run, in the terms the statements use: the bounds of segments
(41_compressor.md R112), the shape of responses (30_encoding.md R68, 60_exceptions.md R180-R184), and the working state
belonging to the request being performed (10_state.md R28). -/

namespace Sys2Proof.Machine

/-- The bounds of a segment the block produces with threshold `t` (R112). -/
def segmentBounded (t : Nat) : Segment → Prop
  | .rep _ c => max t 1 ≤ c ∧ c ≤ repMax
  | .lit bs => 1 ≤ bs.length ∧ bs.length ≤ litMax

/-- A status record whose Kind classifies its Status_Kind byte (R161) and whose Expansion is a signed 64-bit integer
(R163). -/
def recordWf (rec : StatusRecord) : Prop :=
  rec.kind = classify rec.statusKind ∧ -2 ^ 63 ≤ rec.expansion ∧ rec.expansion ≤ 2 ^ 63 - 1

/-- The shape of a response: an error carries no data and no record (R180), but for UNRECOGNIZED_STATUS_KIND, which carries
the whole record and the raw kind (R183); SEGMENT_OVERFLOW_ERROR is never raised (R184); INFO is 0 on success and a
record's response has no data (R68, R181). -/
def responseWf (r : Response) : Prop :=
  match r.code with
  | .ok => r.info = 0 ∧ ∀ rec, r.record = some rec → r.data = [] ∧ recordWf rec ∧ ∀ v, rec.kind ≠ .unrecognized v
  | .unrecognizedStatusKind =>
    r.data = [] ∧ ∃ rec, r.record = some rec ∧ recordWf rec ∧ rec.kind = .unrecognized rec.statusKind ∧
      r.info = byteInfo rec.statusKind
  | .segmentOverflowError => False
  | .frameLengthError => r.data = [] ∧ r.record = none
  | .illegalOperation => r.data = [] ∧ r.record = none
  | .badOperand => r.data = [] ∧ r.record = none
  | .argLengthError => r.data = [] ∧ r.record = none

/-- The working state belongs to the request being performed and to nothing else: none in IDLE, COMPRESS's after the bytes
it has taken in of this line, DECODE_STATUS's the first bytes of this frame (R26, R28). -/
def workBelongs (phase : Phase) : Work → Prop
  | .none => True
  | .compressing w =>
    ∃ req t, phase = .busy req ∧ decodeCmd req.cmd = .ok (.compress t) ∧ w.consumed ≤ req.args.length ∧
      w = (req.args.take w.consumed).foldl (takeByte t.toNat) startCompress
  | .receiving bytes =>
    ∃ req, phase = .busy req ∧ decodeCmd req.cmd = .ok .decodeStatus ∧ bytes = req.args.take bytes.length

/-- The reference decoder has read segments a header can open, or has stopped at a truncated line (R69, R120). -/
def readerWf (r : Reader) : Prop :=
  match r.result with
  | .segments segs => ∀ seg ∈ segs, segmentBounded 0 seg
  | .malformed => r.rest = []

/-- The invariant of every state a run from reset reaches. That the working state is the fused walk's is the model's choice
(log 3), and so is the reference decoder beside the block (log 1). -/
def stateInv (s : State) : Prop :=
  workBelongs s.phase s.work ∧ (∀ r ∈ s.responses, responseWf r) ∧ (∀ r ∈ s.received, responseWf r) ∧ readerWf s.reader

/-- A safe step answers a next state: no fault, no refusal (R180, R191: an error is a response). -/
def stepSafe (s : State) : Prop := ∃ t, step s = .next t

/-- `k` steps, stopping at the first fault or refusal. -/
def runSteps : Nat → State → Host.Outcome State Fault Refusal
  | 0, s => .next s
  | k + 1, s =>
    match step s with
    | .next t => runSteps k t
    | .fault r => .fault r
    | .refused r => .refused r

/-- `k` steps of a job from reset: the host's program is the parameter (10_state.md R29; log 15). -/
def runJob (job : HostJob) (k : Nat) : Host.Outcome State Fault Refusal := runSteps k (State.reset.withJob job)

/-- The responses the host has taken and those it has not, in the order the block returned them (R53). -/
def returned (s : State) : List Response := s.received ++ s.responses

end Sys2Proof.Machine
end

