-- ==== Sys2Proof/Certificates/Slice0/Obligations.lean ====
section
/-! DEFINITION. The statements for the provers. -/

open Sys2Proof Sys2Proof.Machine

/-! ## Encoding (30_encoding.md) -/

/-- Decoding an encoded instruction gives it back, for every well-formed instruction and every operand value
(30_encoding.md sections 1 and 2). -/
def Obligations.DecodeReadsEncodedInstruction : Prop :=
  ∀ i : Instr, i.wellFormed = true → decode (encode i) = .ok i

/-- Every encoding has one meaning: what decodes to an instruction is that instruction's encoding, and the instruction is
well formed (30_encoding.md section 1: "Every word either selects exactly one operation or raises ILLEGAL_OPERATION"). -/
def Obligations.EncodeInvertsDecode : Prop :=
  ∀ (e : Encoding) (i : Instr), decode e = .ok i → encode i = e ∧ i.wellFormed = true

/-- R67: a command word is rejected exactly when it is one of the reserved ones (OP 5-15; SEL 7-15 with OP 2; a nonzero SEL
with another OP; a nonzero A or B where the operation does not use it; a nonzero RSV), the fields read as numbers, and the
block then answers the request with ILLEGAL_OPERATION and INFO = CMD. -/
def Obligations.ReservedWordsAreIllegal : Prop :=
  ∀ w : CmdWord,
    let op := w.toNat % 16
    let sel := w.toNat / 2 ^ 4 % 16
    let a := w.toNat / 2 ^ 8 % 256
    let b := w.toNat / 2 ^ 16 % 256
    let rsv := w.toNat / 2 ^ 24
    let reserved := 5 ≤ op ∨ (op = 2 ∧ 7 ≤ sel) ∨ (op ≠ 2 ∧ sel ≠ 0) ∨
      ((op = 2 ∨ op = 4) ∧ a ≠ 0) ∨ (op ≠ 3 ∧ b ≠ 0) ∨ rsv ≠ 0
    (reserved → decodeCmd w = .error (.illegalOperation w) ∧
      ∀ args, perform { cmd := w, args := args } = errorResponse .illegalOperation w) ∧
    (¬ reserved → ∃ i, decodeCmd w = .ok i)

/-- A sanity check: words written out from the tables of 30_encoding.md sections 1 and 2 decode to the instructions they
stand for, one of each family. -/
def Obligations.WrittenWordsDecode : Prop :=
  decode (.command 0x00000800#32) = .ok (.normalize 8#8) ∧
  decode (.command 0x00000301#32) = .ok (.compress 3#8) ∧
  decode (.command 0x00000042#32) = .ok .ctrlCompressionMode ∧
  decode (.command 0x00120503#32) = .ok (.rasterFrame 0x05#8 0x12#8) ∧
  decode (.command 0x00000004#32) = .ok .decodeStatus ∧
  decode (.header 0x7F#8) = .ok (.litHeader 0x7F#8) ∧
  decode (.header 0x80#8) = .ok (.repHeader 0x80#8)

/-! ## A step runs the decoded instruction -/

/-- A block that holds a request whose word decodes performs it in its next step, unless the script first resets the block,
lets its work advance or takes a waiting response (log 2): step is exec of the decoded instruction, which is well formed. -/
def Obligations.StepRunsHeldRequest : Prop :=
  ∀ (s : State) (req : Request) (i : Instr),
    s.active = .block → s.phase = .busy req → decodeCmd req.cmd = .ok i →
    (∀ rest, s.script ≠ .reset :: rest) → (∀ rest, s.script ≠ .progress :: rest) →
    (∀ rest, s.script = .take :: rest → s.responses = []) →
    i.wellFormed = true ∧ step s = exec i s

/-- When the reference decoder is to move and a header stands at the front of what it has not read, step is exec of the
header row that byte decodes to, which is well formed (log 1). -/
def Obligations.StepRunsHeader : Prop :=
  ∀ (s : State) (h : Byte) (rest : List Byte),
    s.active = .reader → s.reader.rest = h :: rest →
    (decodeHeader h).wellFormed = true ∧ decode (.header h) = .ok (decodeHeader h) ∧ step s = exec (decodeHeader h) s

/-- The state withFetchWord makes runs exactly the table's instruction in its next step, from any state (log 5). -/
def Obligations.FetchWordRunsNext : Prop :=
  ∀ (s : State) (nbits w : Nat) (i : Instr),
    decodeTableWord nbits w = some i → step (s.withFetchWord nbits w) = exec i (s.withFetchWord nbits w)

/-! ## The run-count codec (40_runcount_codec.md) -/

/-- R101: NORMALIZE of a held request answers BAD_OPERAND for n > 64, else ARG_LENGTH_ERROR unless ARGS has 8 bytes, else
OK with the 8 big-endian bytes of `value mod 2^n`; its word is `0x0000nn00`. -/
def Obligations.NormalizeResponds : Prop :=
  ∀ (s : State) (req : Request) (n : Byte), s.phase = .busy req →
    decodeCmd (BitVec.ofNat 32 (n.toNat * 2 ^ 8)) = .ok (.normalize n) ∧
    (64 < n.toNat → exec (.normalize n) s = .next (respond (errorResponse .badOperand (n.setWidth 32)) s)) ∧
    (n.toNat ≤ 64 → req.args.length ≠ 8 →
      exec (.normalize n) s = .next (respond
        (errorResponse .argLengthError (BitVec.ofNat 32 (min req.args.length (2 ^ 32 - 1)))) s)) ∧
    (n.toNat ≤ 64 → req.args.length = 8 →
      ∃ data, exec (.normalize n) s = .next (respond (okResponse data) s) ∧
        data.length = 8 ∧ (beValue data : Int) = signedBE req.args % 2 ^ n.toNat)

/-- NORMALIZE can be computed by truncation: the result is the low n bits of the operand's 64-bit pattern. The spec's own
inference (40_runcount_codec.md section 3: "the low `n` bits of the 64-bit two's-complement representation of `value`"). -/
def Obligations.NormalizeTruncates : Prop :=
  ∀ (s : State) (req : Request) (n : Byte), s.phase = .busy req → n.toNat ≤ 64 → req.args.length = 8 →
    ∃ data, exec (.normalize n) s = .next (respond (okResponse data) s) ∧
      data.length = 8 ∧ beValue data = beValue req.args % 2 ^ n.toNat

/-- R102: the document's two laws of run counts. -/
def Obligations.RunCountLaws : Prop :=
  (∀ count : Nat, 1 ≤ count → count ≤ 128 → normalizeInt (-(count : Int)) 8 = 256 - count) ∧
  (∀ count : Nat, count < 256 → normalizeInt (count : Int) 8 = count)

/-- `bytes_be` and `be` are inverse on values that fit, and `be` reads index 0 as the most significant byte
(00_scope.md section 4; 20_memory.md section 2). -/
def Obligations.BigEndianBytesReadBack : Prop :=
  (∀ k v, v < 256 ^ k → (bytesBE k v).length = k ∧ beValue (bytesBE k v) = v) ∧
  (∀ bs : List Byte, beValue bs < 256 ^ bs.length ∧ bytesBE bs.length (beValue bs) = bs) ∧
  (∀ (b : Byte) (bs : List Byte), beValue (b :: bs) = b.toNat * 256 ^ bs.length + beValue bs)

/-! ## The compressor (41_compressor.md) -/

/-- R110: COMPRESS of a held request answers BAD_OPERAND for T > 64, else ARG_LENGTH_ERROR for a line longer than W_MAX, else
OK with the line's runs segmented and serialized; its word is `0x0000TT01`, and SEGMENT_OVERFLOW_ERROR is never raised. -/
def Obligations.CompressResponds : Prop :=
  ∀ (s : State) (req : Request) (t : Byte), s.phase = .busy req →
    decodeCmd (BitVec.ofNat 32 (t.toNat * 2 ^ 8 + 1)) = .ok (.compress t) ∧
    (64 < t.toNat → exec (.compress t) s = .next (respond (errorResponse .badOperand (t.setWidth 32)) s)) ∧
    (t.toNat ≤ 64 → Config.wMax < req.args.length →
      exec (.compress t) s = .next (respond
        (errorResponse .argLengthError (BitVec.ofNat 32 (min req.args.length (2 ^ 32 - 1)))) s)) ∧
    (t.toNat ≤ 64 → req.args.length ≤ Config.wMax →
      exec (.compress t) s =
        .next (respond (okResponse (serialize (segmentRuns (runs req.args) t.toNat))) s)) ∧
    (∀ u r, exec (.compress t) s = .next u → u.responses = s.responses ++ [r] → r.code ≠ .segmentOverflowError)

/-- R111: the runs of a line are at least 1 long, adjacent ones differ in value, and together they are the line. -/
def Obligations.RunsAreMaximal : Prop :=
  ∀ scanline : List Byte,
    (∀ r ∈ runs scanline, 1 ≤ r.length) ∧
    (∀ before r r' after, runs scanline = before ++ r :: r' :: after → r.value ≠ r'.value) ∧
    ((runs scanline).map Run.length).sum = scanline.length ∧
    (runs scanline).flatMap (fun r => List.replicate r.length r.value) = scanline

/-- R112: every RepeatRun the block produces counts max(T, 1) to 128, every LiteralRun has 1 to 128 bytes, and the segments
partition the line in order. -/
def Obligations.SegmentsBoundedAndExact : Prop :=
  ∀ (scanline : List Byte) (t : Nat), t ≤ 64 →
    (∀ v c, Segment.rep v c ∈ segmentRuns (runs scanline) t → max t 1 ≤ c ∧ c ≤ 128) ∧
    (∀ bs, Segment.lit bs ∈ segmentRuns (runs scanline) t → 1 ≤ bs.length ∧ bs.length ≤ 128) ∧
    expand (segmentRuns (runs scanline) t) = scanline

/-- R113: the walk over the runs. A run of length `≥ T` becomes the RepeatRuns of its split between the segments of the runs
before it and of those after it; runs all shorter than T become the literal split of their bytes together, or nothing when there
are none. -/
def Obligations.SegmentationWalk : Prop :=
  (∀ (before after : List Run) (r : Run) (t : Nat), t ≤ r.length →
    segmentRuns (before ++ r :: after) t =
      segmentRuns before t ++ repChunks r.value r.length t ++ segmentRuns after t) ∧
  (∀ (rs : List Run) (t : Nat), (∀ r ∈ rs, 1 ≤ r.length ∧ r.length < t) →
    (rs = [] → segmentRuns rs t = []) ∧
    (rs ≠ [] → segmentRuns rs t = litChunks (rs.flatMap fun r => List.replicate r.length r.value)))

/-- R114: the comparison is `k >= T` on the whole maximal run. A run of length `≥ T` becomes the RepeatRuns of its split, in
its place; a shorter one lies whole in literal bytes, in its place. -/
def Obligations.ThresholdDecidesWholeRun : Prop :=
  ∀ (scanline : List Byte) (t : Nat) (before after : List Run) (r : Run), t ≤ 64 →
    runs scanline = before ++ r :: after →
    (t ≤ r.length → ∃ p q, segmentRuns (runs scanline) t = p ++ repChunks r.value r.length t ++ q ∧
      expand p = before.flatMap (fun x => List.replicate x.length x.value)) ∧
    (r.length < t → ∃ (p : List Segment) (lits : List (List Byte)) (q : List Segment) (pre post : List Byte),
      segmentRuns (runs scanline) t = p ++ lits.map Segment.lit ++ q ∧
      lits.flatten = pre ++ List.replicate r.length r.value ++ post ∧
      expand p ++ pre = before.flatMap (fun x => List.replicate x.length x.value))

/-- R115: the split of a run of `k ≥ max(T, 1)` bytes, in its four cases; every count lies in [max(T, 1), 128] and the counts
sum to `k`. -/
def Obligations.RepeatSplitBoundedAndExact : Prop :=
  ∀ (v : Byte) (k t : Nat), t ≤ 64 → t ≤ k → 1 ≤ k →
    (k ≤ 128 → repChunks v k t = [.rep v k]) ∧
    (128 < k → k % 128 = 0 → repChunks v k t = List.replicate (k / 128) (.rep v 128)) ∧
    (128 < k → k % 128 ≠ 0 → t ≤ k % 128 →
      repChunks v k t = List.replicate (k / 128) (.rep v 128) ++ [.rep v (k % 128)]) ∧
    (128 < k → k % 128 ≠ 0 → k % 128 < t →
      repChunks v k t = List.replicate (k / 128 - 1) (.rep v 128) ++ [.rep v (128 - (t - k % 128)), .rep v t]) ∧
    ∃ counts : List Nat, repChunks v k t = counts.map (Segment.rep v) ∧ counts.sum = k ∧
      ∀ c ∈ counts, max t 1 ≤ c ∧ c ≤ 128

/-- R116: a non-empty accumulator becomes LiteralRuns of exactly 128 bytes and a last one of 1 to 128, in order. -/
def Obligations.LiteralSplitExact : Prop :=
  ∀ acc : List Byte, acc ≠ [] →
    ∃ (full : List (List Byte)) (last : List Byte), litChunks acc = full.map Segment.lit ++ [.lit last] ∧
      full.flatten ++ last = acc ∧ (∀ bs ∈ full, bs.length = 128) ∧ 1 ≤ last.length ∧ last.length ≤ 128

/-- Two LiteralRuns are adjacent only where an accumulation of more than 128 bytes was split: the first of them is full. The
spec's own inference (41_compressor.md section 3: "only when `litChunks` split a longer accumulation"). -/
def Obligations.AdjacentLiteralsAreSplits : Prop :=
  ∀ (scanline : List Byte) (t : Nat) (p q : List Segment) (a b : List Byte),
    segmentRuns (runs scanline) t = p ++ .lit a :: .lit b :: q → a.length = 128

/-- R118: a segment sequence is serialized in order; a RepeatRun as `normalize(-count, 8)`, which is `256 - count`, and its value,
a LiteralRun as its length minus one and its bytes. -/
def Obligations.SerializedBytes : Prop :=
  serialize [] = [] ∧
  (∀ (v : Byte) (c : Nat) (segs : List Segment), 1 ≤ c → c ≤ 128 →
    normalizeInt (-(c : Int)) 8 = 256 - c ∧
    serialize (.rep v c :: segs) = BitVec.ofNat 8 (normalizeInt (-(c : Int)) 8) :: v :: serialize segs) ∧
  (∀ (bs : List Byte) (segs : List Segment), 1 ≤ bs.length → bs.length ≤ 128 →
    serialize (.lit bs :: segs) = BitVec.ofNat 8 (bs.length - 1) :: bs ++ serialize segs)

/-- The header byte tells the two kinds of segment apart: `256 - c` in 0x80-0xFF for a repeat, `length - 1` in 0x00-0x7F for a
literal. The spec's own inference (41_compressor.md section 4: "bit 7 of a header tells the two kinds apart"). -/
def Obligations.SerializedHeadersDisjoint : Prop :=
  (∀ v c, 1 ≤ c → c ≤ 128 →
    ∃ h : Byte, serializeSegment (.rep v c) = [h, v] ∧ h.toNat = 256 - c ∧ decodeHeader h = .repHeader h) ∧
  (∀ bs : List Byte, 1 ≤ bs.length → bs.length ≤ 128 →
    ∃ h : Byte, serializeSegment (.lit bs) = h :: bs ∧ h.toNat = bs.length - 1 ∧ decodeHeader h = .litHeader h)

/-- Round trip: parsing a compressed line gives the segments it was made from, and they expand to the line. The spec's own
inference (41_compressor.md section 5: "For every byte sequence `line` and every `T` in [0, 64], three equalities hold"). -/
def Obligations.CompressRoundTrip : Prop :=
  ∀ (scanline : List Byte) (t : Nat), t ≤ 64 →
    ∃ segs, segs = segmentRuns (runs scanline) t ∧ expand segs = scanline ∧
      parse (serialize segs) = .segments segs ∧ parse (compress scanline t) = .segments segs

/-- The output length bounds, and where they are reached. The spec's own inference (41_compressor.md section 5: "Output length
bounds, for a line of length `L`"). -/
def Obligations.CompressedLengthBounds : Prop :=
  ∀ (scanline : List Byte) (t : Nat), t ≤ 64 →
    (compress scanline t).length ≤ 2 * scanline.length ∧
    (3 ≤ t → (compress scanline t).length ≤ scanline.length + (scanline.length + 127) / 128) ∧
    ((∀ r ∈ runs scanline, r.length < t) →
      (compress scanline t).length = scanline.length + (scanline.length + 127) / 128) ∧
    (t ≤ 1 → (∀ r ∈ runs scanline, r.length = 1) → (compress scanline t).length = 2 * scanline.length)

/-- T = 0 and T = 1 give the same output with no LiteralRun; with T = 2 every RepeatRun counts at least 2. The spec's
own inference (41_compressor.md section 5: "`T = 0` and `T = 1` give the same output"). -/
def Obligations.SmallThresholds : Prop :=
  ∀ scanline : List Byte,
    compress scanline 0 = compress scanline 1 ∧
    (∀ bs, Segment.lit bs ∉ segmentRuns (runs scanline) 0) ∧ (∀ bs, Segment.lit bs ∉ segmentRuns (runs scanline) 1) ∧
    (∀ v c, Segment.rep v c ∈ segmentRuns (runs scanline) 2 → 2 ≤ c)

/-- An empty line is compressed to nothing, with CODE OK, for every admitted threshold. The spec's own inference
(41_compressor.md section 5: "An empty line (`L = 0`) has no runs and no segments"). -/
def Obligations.EmptyLineCompressesToNothing : Prop :=
  ∀ (s : State) (req : Request) (t : Byte), s.phase = .busy req → req.args = [] → t.toNat ≤ 64 →
    exec (.compress t) s = .next (respond { code := .ok, data := [], record := none, info := 0 } s)

/-- The one-pass walk over COMPRESS's working state gives the same bytes as the three passes, for every line and threshold
(41_compressor.md section 5, 10_state.md section 3: "three conceptual passes, may be fused"). -/
def Obligations.FusedPassesAgree : Prop :=
  ∀ (scanline : List Byte) (t : Nat), compressFused scanline t = compress scanline t

/-! ## The command framer (42_command_framer.md) -/

/-- R140-R148: each of the seven CTRL instructions decodes from its word, answers a held request with empty ARGS by OK and its
literal bytes, and one with any ARGS byte by ARG_LENGTH_ERROR. -/
def Obligations.ControlSequencesReturned : Prop :=
  ∀ p ∈ ([(.ctrlGetStatus, 0x00000002#32, [0x1B, 0x69, 0x53]),
      (.ctrlInitialize, 0x00000012#32, [0x1B, 0x40]),
      (.ctrlRasterMode, 0x00000022#32, [0x1B, 0x69, 0x61, 0x01]),
      (.ctrlExpandedMode, 0x00000032#32, [0x1B, 0x69, 0x4B, 0x80]),
      (.ctrlCompressionMode, 0x00000042#32, [0x4D, 0x02]),
      (.ctrlClearBuffer, 0x00000052#32, [0x5A, 0x5A, 0x5A, 0x5A, 0x5A, 0x5A]),
      (.ctrlPageFeed, 0x00000062#32, [0x0C])] : List (Instr × CmdWord × List Byte)),
    decodeCmd p.2.1 = .ok p.1 ∧
    ∀ (s : State) (req : Request), s.phase = .busy req →
      (req.args = [] → exec p.1 s = .next (respond { code := .ok, data := p.2.2, record := none, info := 0 } s)) ∧
      (req.args ≠ [] → exec p.1 s = .next (respond
        (errorResponse .argLengthError (BitVec.ofNat 32 (min req.args.length (2 ^ 32 - 1)))) s))

/-- R149, R150: RASTER_FRAME of any held request answers OK with 0x47, n1, n2 and the payload, `3 + len(payload)` bytes;
nothing is checked. Its word is `0x00bbaa03`. -/
def Obligations.RasterFrameShape : Prop :=
  ∀ (s : State) (req : Request) (n1 n2 : Byte), s.phase = .busy req →
    decodeCmd (BitVec.ofNat 32 (n2.toNat * 2 ^ 16 + n1.toNat * 2 ^ 8 + 3)) = .ok (.rasterFrame n1 n2) ∧
    ∃ data, exec (.rasterFrame n1 n2) s = .next (respond { code := .ok, data := data, record := none, info := 0 } s) ∧
      data.length = 3 + req.args.length ∧
      data[0]? = some 0x47 ∧ data[1]? = some n1 ∧ data[2]? = some n2 ∧ data.drop 3 = req.args

/-! ## The status decoder (43_status_decoder.md) -/

/-- R160-R163, R165: DECODE_STATUS of a held request answers FRAME_LENGTH_ERROR unless ARGS has 32 bytes; else the record,
with CODE OK for a Status_Kind 0-6 and UNRECOGNIZED_STATUS_KIND, the raw kind in INFO, for 7-255. The record's 24 byte fields are
the frame's first 24 bytes in the order of the field table; Expansion is the last 8 bytes, big-endian, read as two's complement;
Kind classifies byte 18. The word is `0x00000004`. -/
def Obligations.DecodeStatusResponds : Prop :=
  decodeCmd 0x00000004#32 = .ok .decodeStatus ∧
  ∀ (s : State) (req : Request), s.phase = .busy req →
    (req.args.length ≠ 32 → exec .decodeStatus s = .next (respond
      (errorResponse .frameLengthError (BitVec.ofNat 32 (min req.args.length (2 ^ 32 - 1)))) s)) ∧
    (req.args.length = 32 → ∃ (rec : StatusRecord) (k : Byte), req.args[18]? = some k ∧
      [rec.headMark, rec.size, rec.brotherCode, rec.series, rec.model, rec.country, rec.info, rec.reserved, rec.error1,
        rec.error2, rec.mediaWidth, rec.mediaKind, rec.nColors, rec.font, rec.nipponFont, rec.mode, rec.density,
        rec.mediaLength, rec.statusKind, rec.phaseKind, rec.phaseNumberUpper, rec.phaseNumberLower, rec.noticeNumber,
        rec.reserved23] = req.args.take 24 ∧
      -2 ^ 63 ≤ rec.expansion ∧ rec.expansion ≤ 2 ^ 63 - 1 ∧
      rec.expansion % 2 ^ 64 = (beValue (req.args.drop 24) : Int) ∧
      rec.kind = classify k ∧
      (k.toNat ≤ 6 → exec .decodeStatus s = .next (respond
        { code := .ok, data := [], record := some rec, info := 0 } s)) ∧
      (7 ≤ k.toNat → rec.kind = .unrecognized k ∧ exec .decodeStatus s = .next (respond
        { code := .unrecognizedStatusKind, data := [], record := some rec, info := k.setWidth 32 } s)))

/-- R164: the StatusKind table, and the CODE of a record by its Status_Kind byte. -/
def Obligations.StatusKindTable : Prop :=
  classify 0 = .replyToStatusRequest ∧ classify 1 = .printComplete ∧ classify 2 = .errorOccurred ∧
  classify 3 = .reserved3 ∧ classify 4 = .reserved4 ∧ classify 5 = .notice ∧ classify 6 = .phaseChange ∧
  (∀ k : Byte, 7 ≤ k.toNat → classify k = .unrecognized k) ∧
  ∀ rec : StatusRecord, rec.kind = classify rec.statusKind →
    (rec.statusKind.toNat ≤ 6 → (recordResponse rec).code = .ok) ∧
    (7 ≤ rec.statusKind.toNat → (recordResponse rec).code = .unrecognizedStatusKind)

/-! ## Errors (60_exceptions.md) -/

/-- The CODE byte of each outcome (60_exceptions.md section 1), and that no two outcomes share one. -/
def Obligations.CodeBytes : Prop :=
  codeByte .ok = 0x00 ∧ codeByte .unrecognizedStatusKind = 0x01 ∧ codeByte .frameLengthError = 0x02 ∧
  codeByte .segmentOverflowError = 0x03 ∧ codeByte .illegalOperation = 0x04 ∧ codeByte .badOperand = 0x05 ∧
  codeByte .argLengthError = 0x06 ∧ ∀ c d, codeByte c = codeByte d → c = d

/-- R182, R184, R186, R187: which operations raise which code, and when, with INFO. An operation's response has the code exactly
in the cases the rule names, BAD_OPERAND first; SEGMENT_OVERFLOW_ERROR is never raised. -/
def Obligations.ErrorsRaisedExactlyWhereNamed : Prop :=
  ∀ (i : Instr) (s t : State) (req : Request) (r : Response),
    s.phase = .busy req → exec i s = .next t → t.responses = s.responses ++ [r] →
    (r.code = .frameLengthError ↔ i = .decodeStatus ∧ req.args.length ≠ 32) ∧
    (r.code = .frameLengthError →
      r = errorResponse .frameLengthError (BitVec.ofNat 32 (min req.args.length (2 ^ 32 - 1)))) ∧
    (r.code = .badOperand ↔ ∃ x : Byte, (i = .normalize x ∨ i = .compress x) ∧ 64 < x.toNat) ∧
    (∀ x : Byte, i = .normalize x ∨ i = .compress x → 64 < x.toNat → r = errorResponse .badOperand (x.setWidth 32)) ∧
    (r.code = .argLengthError ↔ r.code ≠ .badOperand ∧
      ((∃ n, i = .normalize n ∧ req.args.length ≠ 8) ∨ (∃ x, i = .compress x ∧ Config.wMax < req.args.length) ∨
        (i ∈ [.ctrlGetStatus, .ctrlInitialize, .ctrlRasterMode, .ctrlExpandedMode, .ctrlCompressionMode,
          .ctrlClearBuffer, .ctrlPageFeed] ∧ req.args.length ≠ 0))) ∧
    (r.code = .argLengthError →
      r = errorResponse .argLengthError (BitVec.ofNat 32 (min req.args.length (2 ^ 32 - 1)))) ∧
    (r.code = .unrecognizedStatusKind ↔
      i = .decodeStatus ∧ req.args.length = 32 ∧ ∃ k : Byte, req.args[18]? = some k ∧ 7 ≤ k.toNat) ∧
    r.code ≠ .segmentOverflowError ∧ r.code ≠ .illegalOperation

/-- R189: one request yields one CODE, the first in the order ILLEGAL_OPERATION, BAD_OPERAND, a length error,
UNRECOGNIZED_STATUS_KIND, OK whose condition holds. -/
def Obligations.ErrorPriority : Prop :=
  ∀ req : Request,
    (∀ e, decodeCmd req.cmd = .error e → (perform req).code = .illegalOperation) ∧
    ∀ i, decodeCmd req.cmd = .ok i →
      let badField := ∃ x : Byte, (i = .normalize x ∨ i = .compress x) ∧ 64 < x.toNat
      let badArgs := (∃ n, i = .normalize n ∧ req.args.length ≠ 8) ∨
        (∃ x, i = .compress x ∧ Config.wMax < req.args.length) ∨ ((∃ c, i = instrOfCtrl c) ∧ req.args.length ≠ 0)
      let badFrame := i = .decodeStatus ∧ req.args.length ≠ 32
      let badKind := i = .decodeStatus ∧ ∃ k : Byte, req.args[18]? = some k ∧ 7 ≤ k.toNat
      (badField → (perform req).code = .badOperand) ∧
      (¬ badField → badArgs → (perform req).code = .argLengthError) ∧
      (¬ badField → badFrame → (perform req).code = .frameLengthError) ∧
      (¬ badField → ¬ badArgs → ¬ badFrame → badKind → (perform req).code = .unrecognizedStatusKind) ∧
      (¬ badField → ¬ badArgs → ¬ badFrame → ¬ badKind → (perform req).code = .ok)

/-- A block that holds a request whose word selects no operation answers ILLEGAL_OPERATION with the whole word in INFO, whatever
ARGS holds (60_exceptions.md section 1), in its next step, unless the script first resets the block, lets its work advance or takes
a waiting response (the model's choice, log 2 and log 3). -/
def Obligations.IllegalWordAnswered : Prop :=
  ∀ (s : State) (req : Request) (e : DecodeError),
    s.active = .block → s.phase = .busy req → decodeCmd req.cmd = .error e →
    (∀ rest, s.script ≠ .reset :: rest) → (∀ rest, s.script ≠ .progress :: rest) →
    (∀ rest, s.script = .take :: rest → s.responses = []) →
    step s = .next (respond { code := .illegalOperation, data := [], record := none, info := req.cmd } s)

/-! ## What an operation changes (10_state.md) -/

/-- The frame of the eleven operations of the block (NORMALIZE, COMPRESS, the seven CTRL, RASTER_FRAME, DECODE_STATUS): from a
next state it follows that a request was held; the block is IDLE, without working state, with one more response behind the
others; the script, the host's responses and the reference decoder are unchanged. -/
def Obligations.OperationsOnlyRespond : Prop :=
  ∀ (i : Instr) (s t : State), (∀ h, i ≠ .litHeader h) → (∀ h, i ≠ .repHeader h) → exec i s = .next t →
    (∃ req, s.phase = .busy req) ∧ t.phase = .idle ∧ t.work = .none ∧ (∃ r, t.responses = s.responses ++ [r]) ∧
    t.script = s.script ∧ t.received = s.received ∧ t.active = s.active ∧ t.reader = s.reader

/-- The frame of the two header rows: the block does not perform them, so its phase, working state and responses, the script,
the host's responses and the choice of who moves are unchanged (41_compressor.md section 5; log 1). -/
def Obligations.HeadersLeaveBlockAlone : Prop :=
  ∀ (i : Instr) (h : Byte) (s t : State), i = .litHeader h ∨ i = .repHeader h → exec i s = .next t →
    t.phase = s.phase ∧ t.work = s.work ∧ t.responses = s.responses ∧ t.script = s.script ∧
    t.received = s.received ∧ t.active = s.active

/-- R26: the response of a held request is `Perform(CMD, ARGS)`, whatever else the state holds: every operation its word
decodes to answers with it, and a word that selects none is ILLEGAL_OPERATION. -/
def Obligations.ResponseDependsOnRequestAlone : Prop :=
  ∀ (s : State) (req : Request), s.phase = .busy req →
    (∀ i, decodeCmd req.cmd = .ok i → exec i s = .next (respond (perform req) s)) ∧
    (∀ e, decodeCmd req.cmd = .error e → perform req = errorResponse .illegalOperation req.cmd)

/-! ## The reference decoder (30_encoding.md section 2, 41_compressor.md section 5) -/

/-- LIT_HEADER reads the next `h + 1` bytes as a literal segment where they are there, and ends the reading MALFORMED where
the line is truncated; nothing else of the state changes. What it acts on is the model's choice (log 1). -/
def Obligations.LiteralHeaderReads : Prop :=
  ∀ (s : State) (h : Byte) (segs : List Segment), s.reader.result = .segments segs →
    (h.toNat + 2 ≤ s.reader.rest.length → exec (.litHeader h) s = .next { s with
      reader := { rest := s.reader.rest.drop (h.toNat + 2),
                  result := .segments (segs ++ [.lit ((s.reader.rest.drop 1).take (h.toNat + 1))]) } }) ∧
    (s.reader.rest.length < h.toNat + 2 →
      exec (.litHeader h) s = .next { s with reader := { rest := [], result := .malformed } })

/-- REP_HEADER reads the next byte as repeated `256 - h` times where it is there, and ends the reading MALFORMED where the
line is truncated; nothing else of the state changes. What it acts on is the model's choice (log 1). -/
def Obligations.RepeatHeaderReads : Prop :=
  ∀ (s : State) (h : Byte) (segs : List Segment), s.reader.result = .segments segs →
    (∀ h' v rest, s.reader.rest = h' :: v :: rest → exec (.repHeader h) s = .next { s with
      reader := { rest := rest, result := .segments (segs ++ [.rep v (256 - h.toNat)]) } }) ∧
    (s.reader.rest.length < 2 →
      exec (.repHeader h) s = .next { s with reader := { rest := [], result := .malformed } })

/-- The machine's reference decoder, run step by step, computes `parse`: within one step more than the line has bytes it has
read any line to the end, with the result `parse` gives it, and has changed nothing else (log 1). -/
def Obligations.ReaderRunComputesParse : Prop :=
  ∀ (s : State) (bs : List Byte), s.active = .reader → s.reader = { rest := bs, result := .segments [] } →
    ∃ k, k ≤ bs.length + 1 ∧ runSteps k s =
      .next { s with active := .block, reader := { rest := [], result := parse bs } }

/-- The reference decoder, handed the DATA of a COMPRESS response, reads back the segments, in one step each and one more, and
they expand to the line. The spec's own inference (41_compressor.md section 5), run on the machine (log 1). -/
def Obligations.ReaderRecoversCompressedLine : Prop :=
  ∀ (s : State) (scanline : List Byte) (t : Nat), t ≤ 64 → s.active = .reader →
    s.reader = { rest := compress scanline t, result := .segments [] } →
    ∃ segs, expand segs = scanline ∧ runSteps (segs.length + 1) s =
      .next { s with active := .block, reader := { rest := [], result := .segments segs } }

/-! ## The interface, reset and liveness (10_state.md, 20_memory.md, 70_reset_and_hazards.md) -/

/-- R210: after reset the block is IDLE, no request is being performed, and no response or working state is held. -/
def Obligations.ResetStateIdle : Prop :=
  State.reset.phase = .idle ∧ State.reset.responses = [] ∧ State.reset.work = .none

/-- R211: reset discards the request being performed, its working state and the responses not yet taken, in any phase, and
returns no response: what the host has received is unchanged. -/
def Obligations.ResetDiscards : Prop :=
  ∀ (s : State) (rest : List Event), s.active = .block → s.script = .reset :: rest →
    ∃ t, step s = .next t ∧ t.phase = .idle ∧ t.work = .none ∧ t.responses = [] ∧ t.received = s.received ∧ t.script = rest

/-- R25: how the phase moves. In IDLE a step keeps it or accepts the request the host sends; in BUSY(req) it keeps it, or
returns the response of `req`, which is Perform(req), or the block is reset. -/
def Obligations.PhaseMoves : Prop :=
  ∀ s t : State, step s = .next t →
    t.phase = s.phase ∨
    (s.phase = .idle ∧ ∃ req rest, s.script = .send req :: rest ∧ t.phase = .busy req ∧ t.responses = s.responses) ∨
    (∃ req, s.phase = .busy req ∧ t.phase = .idle ∧
      (t.responses = s.responses ++ [perform req] ∨ ∃ rest, s.script = .reset :: rest ∧ t.responses = []))

/-- In IDLE the block accepts the request the host sends, at once; in BUSY it does not: it first answers the request it holds, and
the sent one still waits (10_state.md section 2). That an answer takes one step is log 3, and that earlier responses not yet taken
hold up neither is log 7, both the model's choice. -/
def Obligations.RequestAcceptedOnlyInIdle : Prop :=
  ∀ (s : State) (req : Request) (rest : List Event), s.active = .block → s.script = .send req :: rest →
    (s.phase = .idle → step s = .next { s with phase := .busy req, work := .none, script := rest }) ∧
    (∀ cur, s.phase = .busy cur → step s = .next (respond (perform cur) s) ∧
      (respond (perform cur) s).script = .send req :: rest)

/-- The host takes the oldest response, in either phase; nothing else changes (20_memory.md section 5; that the responses wait
first-in first-out is log 7). -/
def Obligations.HostTakesOldestResponse : Prop :=
  ∀ (s : State) (rest : List Event) (r : Response) (rs : List Response),
    s.active = .block → s.script = .take :: rest → s.responses = r :: rs →
    step s = .next { s with script := rest, responses := rs, received := s.received ++ [r] }

/-- R53: the block returns responses in the order it accepted the requests. It holds one request at a time; a step returns at most
one response, behind those returned before, and it is Perform of the request held; or it is a reset, which drops the responses not
taken. -/
def Obligations.ResponsesKeepRequestOrder : Prop :=
  ∀ s t : State, step s = .next t →
    returned t = returned s ∨
    (∃ req, s.phase = .busy req ∧ t.phase = .idle ∧ returned t = returned s ++ [perform req]) ∨
    (∃ rest, s.active = .block ∧ s.script = .reset :: rest ∧ t.received = s.received ∧ t.responses = [])

/-- Requests sent one after another to an idle block are answered in the order they were accepted, each by its own Perform, and the
block is IDLE with nothing else changed (20_memory.md section 5). That it takes two steps each is the model's choice (log 3), and so
is that the responses wait without bound and the block accepts the next request before the host has taken the earlier responses
(log 7, marked unsafe for this: the host takes nothing in this run). -/
def Obligations.RequestsAnsweredInOrder : Prop :=
  ∀ (s : State) (reqs : List Request), s.active = .block → s.phase = .idle → s.work = .none →
    s.script = reqs.map Event.send →
    runSteps (2 * reqs.length) s =
      .next { s with script := [], responses := s.responses ++ reqs.map perform }

/-- The liveness assumption of 70_reset_and_hazards.md section 3: an accepted request gets its response after finitely many steps,
whatever else the script does short of a reset; that they are at most one more than the script has events is the model's choice
(log 2, log 3), and so is that responses the host does not take never hold up the answer (log 7). -/
def Obligations.AcceptedRequestAnswered : Prop :=
  ∀ (s : State) (req : Request), s.active = .block → s.phase = .busy req → Event.reset ∉ s.script →
    ∃ k t, k ≤ s.script.length + 1 ∧ runSteps k s = .next t ∧ t.phase = .idle ∧
      returned t = returned s ++ [perform req]

/-- No run stops: from every state, every number of steps ends in a next state, never in a fault or a refusal
(60_exceptions.md section 1 and section 3: an error is a response, and there is no trap). -/
def Obligations.RunsNeverStop : Prop :=
  ∀ (k : Nat) (s : State), ∃ t, runSteps k s = .next t

/-- Without a request there is nothing to perform: each of the eleven operations of the block faults in IDLE, by name. The
model's choice for a case no step reaches (log 6). -/
def Obligations.OperationNeedsRequest : Prop :=
  ∀ (i : Instr) (s : State), (∀ h, i ≠ .litHeader h) → (∀ h, i ≠ .repHeader h) → s.phase = .idle →
    exec i s = .fault .noRequest

/-- An idle block with nothing to do stays as it is (10_state.md section 2; log 13). -/
def Obligations.IdleBlockStays : Prop :=
  ∀ s : State, s.active = .block → s.phase = .idle → s.script = [] → step s = .next s

/-- Letting the work advance changes the working state alone, and only in BUSY; it is the model's way to show
10_state.md section 3 (log 3). -/
def Obligations.ProgressChangesWorkAlone : Prop :=
  ∀ (s : State) (rest : List Event), s.active = .block → s.script = .progress :: rest →
    ∃ w, step s = .next { s with script := rest, work := w } ∧ (s.phase = .idle → w = s.work)

/-- Two runs that differ in the working state alone differ in nothing else after any number of steps (10_state.md section 3: "Only
the response can show this state"; log 3). -/
def Obligations.WorkingStateNeverShows : Prop :=
  ∀ (k : Nat) (s t u : State) (w : Work),
    runSteps k s = .next t → runSteps k { s with work := w } = .next u →
    { t with work := .none } = { u with work := .none }

/-- The invariant of Safety.lean is kept by every step from every state that meets it: the working state belongs to the request
being performed and holds what it has taken in of it, every response has the shape of its code, and the reference decoder
holds segments a header can open. Two clauses are the model's choice: that COMPRESS's working state is the fused walk over the bytes
taken in (log 3; 10_state.md section 3 lets it be organised in any way), and the reference decoder held beside the block (log 1). -/
def Obligations.StepKeepsStateInv : Prop :=
  ∀ s t : State, stateInv s → step s = .next t → stateInv t

/-- The state after reset meets the invariant; its clauses on the working state and the reference decoder are the model's choice
(log 3, log 1), and so is the reference decoder's value after reset (log 12). -/
def Obligations.ResetMeetsStateInv : Prop := stateInv State.reset

/-! ## The assembler (30_encoding.md section 3) -/

/-- The worked lines of text and their requests (30_encoding.md section 3). -/
def Obligations.WorkedLinesAssemble : Prop :=
  assembleLine "NORMALIZE 8, -5" =
    .request { cmd := 0x00000800, args := [0xFF, 0xFF, 0xFF, 0xFF, 0xFF, 0xFF, 0xFF, 0xFB] } ∧
  assembleLine "COMPRESS [0,0,0,0,0,1,1,1,1,2]" =
    .request { cmd := 0x00000301, args := [0, 0, 0, 0, 0, 1, 1, 1, 1, 2] } ∧
  assembleLine "CTRL get_status" = .request { cmd := 0x00000002, args := [] } ∧
  assembleLine "CTRL page_feed" = .request { cmd := 0x00000062, args := [] } ∧
  assembleLine "RASTER 5, 0, [0xAA,0xBB,0xCC,0xCC,0xCC]" =
    .request { cmd := 0x00000503, args := [0xAA, 0xBB, 0xCC, 0xCC, 0xCC] }

/-- What the forms of the assembler assemble to: the operation with its operands, NORMALIZE's value read back from its 8 bytes,
the byte list as ARGS; operands outside their range are assembler errors (30_encoding.md section 3). -/
def Obligations.AssembledFormsDecode : Prop :=
  (∀ (n : Nat) (v : Int), n ≤ 255 → -2 ^ 63 ≤ v → v ≤ 2 ^ 63 - 1 →
    ∃ req, assembleForm (.normalize n v) = some req ∧ decodeCmd req.cmd = .ok (.normalize (BitVec.ofNat 8 n)) ∧
      req.args.length = 8 ∧ signedBE req.args = v) ∧
  (∀ (n : Nat) (v : Int), 255 < n ∨ v < -2 ^ 63 ∨ 2 ^ 63 - 1 < v → assembleForm (.normalize n v) = none) ∧
  (∀ (t : Nat) (bs : List Byte), t ≤ 255 →
    ∃ w, assembleForm (.compress t bs) = some { cmd := w, args := bs } ∧ decodeCmd w = .ok (.compress (BitVec.ofNat 8 t))) ∧
  (∀ (t : Nat) (bs : List Byte), 255 < t → assembleForm (.compress t bs) = none) ∧
  (∀ c, ∃ w, assembleForm (.ctrl c) = some { cmd := w, args := [] } ∧ decodeCmd w = .ok (instrOfCtrl c)) ∧
  (∀ (n1 n2 : Nat) (bs : List Byte), n1 ≤ 255 → n2 ≤ 255 →
    ∃ w, assembleForm (.raster n1 n2 bs) = some { cmd := w, args := bs } ∧
      decodeCmd w = .ok (.rasterFrame (BitVec.ofNat 8 n1) (BitVec.ofNat 8 n2))) ∧
  (∀ (n1 n2 : Nat) (bs : List Byte), 255 < n1 ∨ 255 < n2 → assembleForm (.raster n1 n2 bs) = none) ∧
  (∀ bs : List Byte, ∃ w, assembleForm (.decodeFrame bs) = some { cmd := w, args := bs } ∧ decodeCmd w = .ok .decodeStatus)

/-- R73: the two pseudo-instructions and their expansions; RASTERC is an error for more than 255 bytes. -/
def Obligations.PseudoInstructionsExpand : Prop :=
  ∀ bs : List Byte,
    assembleForm (.compressDefault bs) = assembleForm (.compress 3 bs) ∧
    (bs.length ≤ 255 → assembleForm (.rasterc bs) = assembleForm (.raster bs.length 0 bs) ∧
      ∃ req, assembleForm (.rasterc bs) = some req) ∧
    (255 < bs.length → assembleForm (.rasterc bs) = none)

/-- A line of at most 253 bytes compressed with an admitted T ≥ 3 always fits a raster frame by the compressed-line convention:
RASTERC assembles it, and the block frames it as 0x47, its length, 0 and its bytes. The spec's own inference
(42_command_framer.md section 2: "a line of at most 253 bytes compressed with `T >= 3` always fits"). -/
def Obligations.CompressedLineFitsRasterFrame : Prop :=
  ∀ (scanline : List Byte) (t : Nat), 3 ≤ t → t ≤ 64 → scanline.length ≤ 253 →
    ∃ req n1, assembleForm (.rasterc (compress scanline t)) = some req ∧
      n1.toNat = (compress scanline t).length ∧ decodeCmd req.cmd = .ok (.rasterFrame n1 0) ∧
      (perform req).data = 0x47 :: n1 :: 0 :: compress scanline t
end

