-- ==== Sys2Proof/Laws/Codec.lean ====
section
/-! SUPPORT. Byte sequences as numbers, and the run-count codec. -/

namespace Sys2Proof.Machine

/-- Reading on from a value: it moves up by the bytes that follow. -/
theorem beValue_foldl (v : Nat) (bs : List Byte) :
    bs.foldl (fun v b => v * 256 + b.toNat) v = v * 256 ^ bs.length + beValue bs := by
  induction bs generalizing v with
  | nil => simp [beValue]
  | cons b bs ih =>
    rw [beValue, List.foldl_cons, List.foldl_cons, ih, ih]
    simp only [List.length_cons]
    ring

@[simp] theorem beValue_nil : beValue [] = 0 := rfl

@[simp] theorem bytesBE_length (k v : Nat) : (bytesBE k v).length = k := by
  induction k with
  | zero => rfl
  | succ k ih => simp [bytesBE, ih]

/-- The result range of R100. -/
theorem normalize_lt (value : Int) (n : Nat) : normalizeInt value n < 2 ^ n := by
  have h0 : (0 : Int) < 2 ^ n := by positivity
  have h := Int.emod_lt_of_pos value h0
  have h1 := Int.emod_nonneg value (ne_of_gt h0)
  unfold normalizeInt
  zify
  rw [Int.toNat_of_nonneg h1]
  exact h

/-- The congruence of R100. -/
theorem normalize_cast (value : Int) (n : Nat) : (normalizeInt value n : Int) = value % 2 ^ n :=
  Int.toNat_of_nonneg (Int.emod_nonneg value (by positivity))

/-- A signed reading is congruent to the pattern it reads. -/
theorem sext64_emod (v : Nat) : sext64 v % 2 ^ 64 = (v : Int) % 2 ^ 64 := by
  unfold sext64
  split
  · rfl
  · exact Int.sub_emod_right _ _

end Sys2Proof.Machine
end

