-- ==== Sys2Proof/Laws/Compressor.lean ====
section
/-! SUPPORT. Equations of the compressor's passes, and how its working state stands for the part of the line taken in. -/

namespace Sys2Proof.Machine

@[simp] theorem runs_nil : runs [] = [] := rfl

theorem runs_cons (b : Byte) (bs : List Byte) : runs (b :: bs) = consRun b (runs bs) := rfl

/-- Adding a byte in front either begins a run or lengthens the first one. -/
theorem consRun_cases (b : Byte) (rs : List Run) :
    (∃ r rest, rs = r :: rest ∧ r.value = b ∧ consRun b rs = { value := b, length := r.length + 1 } :: rest) ∨
    ((∀ r rest, rs = r :: rest → r.value ≠ b) ∧ consRun b rs = { value := b, length := 1 } :: rs) := by
  cases rs with
  | nil => exact .inr ⟨by simp, rfl⟩
  | cons r rest =>
    by_cases h : r.value = b
    · exact .inl ⟨r, rest, rfl, h, by simp [consRun, h]⟩
    · refine .inr ⟨?_, by simp [consRun, h]⟩
      rintro r' rest' heq
      cases heq
      exact h

/-- The bound on the rounds of the literal split does not matter once it reaches the length. -/
theorem litChunksLoop_of_le (fuel : Nat) (acc : List Byte) (h : acc.length ≤ fuel) :
    litChunksLoop fuel acc = litChunks acc := by
  induction fuel using Nat.strong_induction_on generalizing acc with
  | _ fuel ih =>
    unfold litChunks
    cases fuel with
    | zero => rw [Nat.le_zero.mp h]
    | succ fuel =>
      cases hl : acc.length with
      | zero => simp [litChunksLoop, hl]
      | succ n =>
        by_cases hc : acc.length > litMax
        · have hd : (acc.drop litMax).length ≤ n := by simp [litMax]; omega
          simp only [litChunksLoop, if_pos hc]
          rw [ih fuel (by omega) _ (by omega)]
          rcases Nat.lt_or_ge n (fuel + 1) with hn | hn
          · rw [ih n hn _ hd]
          · omega
        · simp [litChunksLoop, hc]

/-- `litChunks` by its own loop test (R116). -/
theorem litChunks_eq (acc : List Byte) :
    litChunks acc =
      if acc.length > litMax then .lit (acc.take litMax) :: litChunks (acc.drop litMax) else [.lit acc] := by
  rw [← litChunksLoop_of_le (acc.length + 1) acc (by omega)]
  simp only [litChunksLoop]
  split
  · rw [litChunksLoop_of_le _ _ (by simp)]
  · rfl

@[simp] theorem flushLiterals_nil : flushLiterals [] = [] := rfl

theorem flushLiterals_of_ne {acc : List Byte} (h : acc ≠ []) : flushLiterals acc = litChunks acc := by
  simp [flushLiterals, h]

theorem repChunks_of_le {v : Byte} {k t : Nat} (h : k ≤ repMax) : repChunks v k t = [.rep v k] := by
  simp [repChunks, h]

@[simp] theorem serialize_nil : serialize [] = [] := rfl

theorem serialize_cons (seg : Segment) (segs : List Segment) :
    serialize (seg :: segs) = serializeSegment seg ++ serialize segs := rfl

theorem serialize_append (a b : List Segment) : serialize (a ++ b) = serialize a ++ serialize b := by
  simp [serialize]

/-- Taking in one byte counts it. -/
@[simp] theorem takeByte_consumed (t : Nat) (w : CompressWork) (b : Byte) :
    (takeByte t w b).consumed = w.consumed + 1 := by
  unfold takeByte; (repeat' split) <;> rfl

/-- The current run of a working state is not empty and lies within the bytes taken in (R105: "run lengths in [1, W_MAX]"). -/
def runWithin (w : CompressWork) : Prop := ∀ r, w.run = some r → 1 ≤ r.length ∧ r.length ≤ w.consumed

theorem startCompress_runWithin : runWithin startCompress := by simp [runWithin, startCompress]

theorem takeByte_runWithin {t : Nat} {w : CompressWork} {b : Byte} (h : runWithin w) : runWithin (takeByte t w b) := by
  intro r hr
  rw [takeByte_consumed]
  unfold takeByte at hr
  (repeat' split at hr) <;> simp only [Option.some.injEq] at hr <;> subst hr
  · simp
  · rename_i r' hr' _
    have := h r' hr'
    simp only
    omega
  · simp

/-- The walk over any bytes counts them, and its current run lies within them. -/
theorem walk_runWithin (t : Nat) (bs : List Byte) {w : CompressWork} (h : runWithin w) :
    runWithin (bs.foldl (takeByte t) w) ∧ (bs.foldl (takeByte t) w).consumed = w.consumed + bs.length := by
  induction bs generalizing w with
  | nil => exact ⟨h, rfl⟩
  | cons b bs ih =>
    obtain ⟨h1, h2⟩ := ih (takeByte_runWithin (t := t) (b := b) h)
    refine ⟨h1, ?_⟩
    rw [List.foldl_cons, h2, takeByte_consumed, List.length_cons]
    omega

end Sys2Proof.Machine
end

