-- ==== Sys2Proof/Laws/Decode.lean ====
section
/-! SUPPORT. The fields of a command word built from fields, and the inversion of decoding. -/

namespace Sys2Proof

@[simp] theorem cmdOp_cmdWord (op sel : BitVec 4) (a b : Byte) : cmdOp (cmdWord op sel a b) = op := by
  apply BitVec.eq_of_getLsbD_eq
  intro i hi
  simp only [cmdOp, cmdWord, BitVec.getLsbD_extractLsb', BitVec.getLsbD_append]
  interval_cases i <;> simp

@[simp] theorem cmdSel_cmdWord (op sel : BitVec 4) (a b : Byte) : cmdSel (cmdWord op sel a b) = sel := by
  apply BitVec.eq_of_getLsbD_eq
  intro i hi
  simp only [cmdSel, cmdWord, BitVec.getLsbD_extractLsb', BitVec.getLsbD_append]
  interval_cases i <;> simp

@[simp] theorem cmdA_cmdWord (op sel : BitVec 4) (a b : Byte) : cmdA (cmdWord op sel a b) = a := by
  apply BitVec.eq_of_getLsbD_eq
  intro i hi
  simp only [cmdA, cmdWord, BitVec.getLsbD_extractLsb', BitVec.getLsbD_append]
  interval_cases i <;> simp

@[simp] theorem cmdB_cmdWord (op sel : BitVec 4) (a b : Byte) : cmdB (cmdWord op sel a b) = b := by
  apply BitVec.eq_of_getLsbD_eq
  intro i hi
  simp only [cmdB, cmdWord, BitVec.getLsbD_extractLsb', BitVec.getLsbD_append]
  interval_cases i <;> simp

@[simp] theorem cmdRsv_cmdWord (op sel : BitVec 4) (a b : Byte) : cmdRsv (cmdWord op sel a b) = 0 := by
  apply BitVec.eq_of_getLsbD_eq
  intro i hi
  simp only [cmdRsv, cmdWord, BitVec.getLsbD_extractLsb', BitVec.getLsbD_append]
  interval_cases i <;> simp

/-- A word with RSV = 0 is built from its other fields (R60). -/
theorem cmdWord_fields {w : CmdWord} (h : cmdRsv w = 0) : cmdWord (cmdOp w) (cmdSel w) (cmdA w) (cmdB w) = w := by
  apply BitVec.eq_of_getLsbD_eq
  intro i hi
  have hr : ∀ j, j < 8 → w.getLsbD (24 + j) = false := by
    intro j hj
    have := congrArg (fun x : Byte => x.getLsbD j) h
    simpa [cmdRsv, BitVec.getLsbD_extractLsb', hj] using this
  simp only [cmdWord, cmdOp, cmdSel, cmdA, cmdB, BitVec.getLsbD_append, BitVec.getLsbD_extractLsb']
  rcases Nat.lt_or_ge i 24 with h24 | h24
  · interval_cases i <;> simp
  · obtain ⟨j, rfl⟩ := Nat.exists_eq_add_of_le h24
    have hj : j < 8 := by omega
    have := hr j hj
    interval_cases j <;> simp_all

/-- A rejected word is rejected by name, with the word (R66). -/
theorem decodeCmd_error {w : CmdWord} {e : DecodeError} (h : decodeCmd w = .error e) : e = .illegalOperation w := by
  unfold decodeCmd decodeCtrl at h
  (repeat' split at h) <;> simp_all

/-- The selector of a control sequence it names (R63). -/
theorem selectorOfCtrl_of_ctrlOfSelector {sel : BitVec 4} {c : CtrlName} (h : ctrlOfSelector sel = some c) :
    selectorOfCtrl c = sel := by
  revert sel c; decide

/-- The control sequence a selector of R63 names. -/
@[simp] theorem ctrlOfSelector_selectorOfCtrl (c : CtrlName) : ctrlOfSelector (selectorOfCtrl c) = some c := by
  cases c <;> rfl

/-- All a decoded word can be: RSV is 0 and the fields are one operation's (R64, R66). -/
theorem decodeCmd_ok {w : CmdWord} {i : Instr} (h : decodeCmd w = .ok i) :
    cmdRsv w = 0 ∧
    ((cmdOp w = 0x0 ∧ cmdSel w = 0 ∧ cmdB w = 0 ∧ i = .normalize (cmdA w)) ∨
     (cmdOp w = 0x1 ∧ cmdSel w = 0 ∧ cmdB w = 0 ∧ i = .compress (cmdA w)) ∨
     (∃ c, cmdOp w = 0x2 ∧ cmdSel w = selectorOfCtrl c ∧ cmdA w = 0 ∧ cmdB w = 0 ∧ i = instrOfCtrl c) ∨
     (cmdOp w = 0x3 ∧ cmdSel w = 0 ∧ i = .rasterFrame (cmdA w) (cmdB w)) ∨
     (cmdOp w = 0x4 ∧ cmdSel w = 0 ∧ cmdA w = 0 ∧ cmdB w = 0 ∧ i = .decodeStatus)) := by
  unfold decodeCmd at h
  split at h
  · cases h
  rename_i hr
  refine ⟨by simpa using hr, ?_⟩
  split at h
  · rename_i hc; exact .inl ⟨hc.1, hc.2.1, hc.2.2, (Except.ok.inj h).symm⟩
  split at h
  · rename_i hc; exact .inr (.inl ⟨hc.1, hc.2.1, hc.2.2, (Except.ok.inj h).symm⟩)
  split at h
  · rename_i hc
    unfold decodeCtrl at h
    split at h
    · rename_i c hs
      split at h
      · rename_i hab
        exact .inr (.inr (.inl ⟨c, hc, (selectorOfCtrl_of_ctrlOfSelector hs).symm, hab.1, hab.2,
          (Except.ok.inj h).symm⟩))
      · cases h
    · cases h
  split at h
  · rename_i hc; exact .inr (.inr (.inr (.inl ⟨hc.1, hc.2, (Except.ok.inj h).symm⟩)))
  split at h
  · rename_i hc; exact .inr (.inr (.inr (.inr ⟨hc.1, hc.2.1, hc.2.2.1, hc.2.2.2, (Except.ok.inj h).symm⟩)))
  · cases h

/-- The decoding of a word built from fields: only the fields decide (R66). -/
theorem decodeCmd_cmdWord (op sel : BitVec 4) (a b : Byte) :
    decodeCmd (cmdWord op sel a b) =
      if op = 0x0 ∧ sel = 0 ∧ b = 0 then .ok (.normalize a)
      else if op = 0x1 ∧ sel = 0 ∧ b = 0 then .ok (.compress a)
      else if op = 0x2 then decodeCtrl (cmdWord op sel a b)
      else if op = 0x3 ∧ sel = 0 then .ok (.rasterFrame a b)
      else if op = 0x4 ∧ sel = 0 ∧ a = 0 ∧ b = 0 then .ok .decodeStatus
      else .error (.illegalOperation (cmdWord op sel a b)) := by
  simp [decodeCmd]

/-- A CTRL word with empty operand fields decodes to its selector's instruction (R63, R66). -/
theorem decodeCtrl_cmdWord (c : CtrlName) :
    decodeCtrl (cmdWord 0x2 (selectorOfCtrl c) 0 0) = .ok (instrOfCtrl c) := by
  simp [decodeCtrl]

/-- The header row of a byte of a compressed line is well formed (R69). -/
theorem decodeHeader_wellFormed (h : Byte) : (decodeHeader h).wellFormed = true := by
  unfold decodeHeader
  split
  · simpa [Instr.wellFormed] using ‹_›
  · rename_i hn
    simp only [Instr.wellFormed, decide_eq_true_eq]
    bv_omega

end Sys2Proof
end

