-- ==== Sys2Proof/Laws/Responses.lean ====
section
/-! SUPPORT. The response of each operation, case by case of its checks. -/

namespace Sys2Proof.Machine

theorem normalizeOp_badOperand {n : Byte} (h : 64 < n.toNat) (args : List Byte) :
    normalizeOp n args = errorResponse .badOperand (byteInfo n) := if_pos h

theorem normalizeOp_argLength {n : Byte} (h : n.toNat ≤ 64) {args : List Byte} (hl : args.length ≠ 8) :
    normalizeOp n args = errorResponse .argLengthError (lengthInfo args.length) :=
  (if_neg (Nat.not_lt.mpr h)).trans (if_pos hl)

theorem normalizeOp_ok {n : Byte} (h : n.toNat ≤ 64) {args : List Byte} (hl : args.length = 8) :
    normalizeOp n args = okResponse (bytesBE 8 (normalizeInt (signedBE args) n.toNat)) :=
  (if_neg (Nat.not_lt.mpr h)).trans (if_neg (not_not.mpr hl))

theorem compressOp_badOperand {t : Byte} (h : 64 < t.toNat) (args : List Byte) :
    compressOp t args = errorResponse .badOperand (byteInfo t) := if_pos h

theorem compressOp_argLength {t : Byte} (h : t.toNat ≤ 64) {args : List Byte} (hl : Config.wMax < args.length) :
    compressOp t args = errorResponse .argLengthError (lengthInfo args.length) :=
  (if_neg (Nat.not_lt.mpr h)).trans (if_pos hl)

theorem compressOp_ok {t : Byte} (h : t.toNat ≤ 64) {args : List Byte} (hl : args.length ≤ Config.wMax) :
    compressOp t args = okResponse (compress args t.toNat) :=
  (if_neg (Nat.not_lt.mpr h)).trans (if_neg (Nat.not_lt.mpr hl))

/-- What the checks admit is answered OK, and nothing else is. -/
theorem compressOp_code_ok_iff {t : Byte} {args : List Byte} : (compressOp t args).code = .ok ↔ compressAdmits t args := by
  unfold compressOp compressAdmits
  split
  · simp [errorResponse]; omega
  · split
    · simp [errorResponse]; omega
    · simp [okResponse]; omega

theorem ctrlOp_argLength (c : CtrlName) {args : List Byte} (h : args.length ≠ 0) :
    ctrlOp c args = errorResponse .argLengthError (lengthInfo args.length) := if_pos h

theorem ctrlOp_ok (c : CtrlName) : ctrlOp c [] = okResponse (ctrlSequence c) := rfl

theorem decodeStatusOp_frameLength {args : List Byte} (h : args.length ≠ 32) :
    decodeStatusOp args = errorResponse .frameLengthError (lengthInfo args.length) := if_pos h

theorem decodeStatusOp_record {args : List Byte} (h : args.length = 32) :
    decodeStatusOp args = recordResponse (decodeFrame args) := if_neg (not_not.mpr h)

/-- A record of a recognized kind is reported with OK (R162). -/
theorem recordResponse_ok {rec : StatusRecord} (h : ∀ v, rec.kind ≠ .unrecognized v) :
    recordResponse rec = { code := .ok, data := [], record := some rec, info := 0 } := by
  unfold recordResponse
  split
  · rename_i v hv; exact absurd hv (h v)
  · rfl

/-- A record of an unmapped kind is reported with the raw kind (R165). -/
theorem recordResponse_unrecognized {rec : StatusRecord} {v : Byte} (h : rec.kind = .unrecognized v) :
    recordResponse rec = { code := .unrecognizedStatusKind, data := [], record := some rec, info := byteInfo v } := by
  unfold recordResponse; rw [h]

/-- The operations of the CTRL instructions (R141). -/
theorem operationResponse_instrOfCtrl (c : CtrlName) (req : Request) :
    operationResponse (instrOfCtrl c) req = ctrlOp c req.args := by
  cases c <;> rfl

end Sys2Proof.Machine
end

