-- ==== Sys2Proof/Laws/State.lean ====
section
/-! SUPPORT. One lemma per field per update of the state, each true by unfolding. -/

namespace Sys2Proof.Machine

@[simp] theorem respond_phase (r : Response) (s : State) : (respond r s).phase = .idle := rfl
@[simp] theorem respond_work (r : Response) (s : State) : (respond r s).work = .none := rfl
@[simp] theorem respond_responses (r : Response) (s : State) : (respond r s).responses = s.responses ++ [r] := rfl
@[simp] theorem respond_script (r : Response) (s : State) : (respond r s).script = s.script := rfl
@[simp] theorem respond_received (r : Response) (s : State) : (respond r s).received = s.received := rfl
@[simp] theorem respond_active (r : Response) (s : State) : (respond r s).active = s.active := rfl
@[simp] theorem respond_reader (r : Response) (s : State) : (respond r s).reader = s.reader := rfl

@[simp] theorem raiseError_phase (c : Code) (v : BitVec 32) (s : State) : (raiseError c v s).phase = .idle := rfl
@[simp] theorem raiseError_work (c : Code) (v : BitVec 32) (s : State) : (raiseError c v s).work = .none := rfl
@[simp] theorem raiseError_responses (c : Code) (v : BitVec 32) (s : State) : (raiseError c v s).responses = s.responses ++ [errorResponse c v] := rfl
@[simp] theorem raiseError_script (c : Code) (v : BitVec 32) (s : State) : (raiseError c v s).script = s.script := rfl
@[simp] theorem raiseError_received (c : Code) (v : BitVec 32) (s : State) : (raiseError c v s).received = s.received := rfl
@[simp] theorem raiseError_active (c : Code) (v : BitVec 32) (s : State) : (raiseError c v s).active = s.active := rfl
@[simp] theorem raiseError_reader (c : Code) (v : BitVec 32) (s : State) : (raiseError c v s).reader = s.reader := rfl

@[simp] theorem resetBlock_phase (s : State) : (resetBlock s).phase = .idle := rfl
@[simp] theorem resetBlock_work (s : State) : (resetBlock s).work = .none := rfl
@[simp] theorem resetBlock_responses (s : State) : (resetBlock s).responses = [] := rfl
@[simp] theorem resetBlock_script (s : State) : (resetBlock s).script = s.script := rfl
@[simp] theorem resetBlock_received (s : State) : (resetBlock s).received = s.received := rfl
@[simp] theorem resetBlock_active (s : State) : (resetBlock s).active = s.active := rfl
@[simp] theorem resetBlock_reader (s : State) : (resetBlock s).reader = s.reader := rfl

@[simp] theorem acceptRequest_phase (req : Request) (s : State) : (acceptRequest req s).phase = .busy req := rfl
@[simp] theorem acceptRequest_work (req : Request) (s : State) : (acceptRequest req s).work = .none := rfl
@[simp] theorem acceptRequest_responses (req : Request) (s : State) : (acceptRequest req s).responses = s.responses := rfl
@[simp] theorem acceptRequest_script (req : Request) (s : State) : (acceptRequest req s).script = s.script := rfl
@[simp] theorem acceptRequest_received (req : Request) (s : State) : (acceptRequest req s).received = s.received := rfl
@[simp] theorem acceptRequest_active (req : Request) (s : State) : (acceptRequest req s).active = s.active := rfl
@[simp] theorem acceptRequest_reader (req : Request) (s : State) : (acceptRequest req s).reader = s.reader := rfl

@[simp] theorem holdCommand_phase (w : CmdWord) (s : State) : (holdCommand w s).phase = .busy { cmd := w, args := [] } := rfl
@[simp] theorem holdCommand_work (w : CmdWord) (s : State) : (holdCommand w s).work = .none := rfl
@[simp] theorem holdCommand_responses (w : CmdWord) (s : State) : (holdCommand w s).responses = s.responses := rfl
@[simp] theorem holdCommand_script (w : CmdWord) (s : State) : (holdCommand w s).script = unpreempted s.script := rfl
@[simp] theorem holdCommand_received (w : CmdWord) (s : State) : (holdCommand w s).received = s.received := rfl
@[simp] theorem holdCommand_active (w : CmdWord) (s : State) : (holdCommand w s).active = .block := rfl
@[simp] theorem holdCommand_reader (w : CmdWord) (s : State) : (holdCommand w s).reader = s.reader := rfl

@[simp] theorem holdHeader_phase (h : Byte) (s : State) : (holdHeader h s).phase = s.phase := rfl
@[simp] theorem holdHeader_work (h : Byte) (s : State) : (holdHeader h s).work = s.work := rfl
@[simp] theorem holdHeader_responses (h : Byte) (s : State) : (holdHeader h s).responses = s.responses := rfl
@[simp] theorem holdHeader_script (h : Byte) (s : State) : (holdHeader h s).script = s.script := rfl
@[simp] theorem holdHeader_received (h : Byte) (s : State) : (holdHeader h s).received = s.received := rfl
@[simp] theorem holdHeader_active (h : Byte) (s : State) : (holdHeader h s).active = .reader := rfl
@[simp] theorem holdHeader_reader (h : Byte) (s : State) : (holdHeader h s).reader = { rest := h :: List.replicate 128 0, result := .segments [] } := rfl

@[simp] theorem advanceWork_phase (s : State) : (advanceWork s).phase = s.phase := by
  unfold advanceWork; (repeat' split) <;> rfl
@[simp] theorem advanceWork_responses (s : State) : (advanceWork s).responses = s.responses := by
  unfold advanceWork; (repeat' split) <;> rfl
@[simp] theorem advanceWork_script (s : State) : (advanceWork s).script = s.script := by
  unfold advanceWork; (repeat' split) <;> rfl
@[simp] theorem advanceWork_received (s : State) : (advanceWork s).received = s.received := by
  unfold advanceWork; (repeat' split) <;> rfl
@[simp] theorem advanceWork_active (s : State) : (advanceWork s).active = s.active := by
  unfold advanceWork; (repeat' split) <;> rfl
@[simp] theorem advanceWork_reader (s : State) : (advanceWork s).reader = s.reader := by
  unfold advanceWork; (repeat' split) <;> rfl

@[simp] theorem readSegment_phase (found : Option (Segment × List Byte)) (s : State) :
    (readSegment found s).phase = s.phase := by
  unfold readSegment; split <;> rfl
@[simp] theorem readSegment_work (found : Option (Segment × List Byte)) (s : State) :
    (readSegment found s).work = s.work := by
  unfold readSegment; split <;> rfl
@[simp] theorem readSegment_responses (found : Option (Segment × List Byte)) (s : State) :
    (readSegment found s).responses = s.responses := by
  unfold readSegment; split <;> rfl
@[simp] theorem readSegment_script (found : Option (Segment × List Byte)) (s : State) :
    (readSegment found s).script = s.script := by
  unfold readSegment; split <;> rfl
@[simp] theorem readSegment_received (found : Option (Segment × List Byte)) (s : State) :
    (readSegment found s).received = s.received := by
  unfold readSegment; split <;> rfl
@[simp] theorem readSegment_active (found : Option (Segment × List Byte)) (s : State) :
    (readSegment found s).active = s.active := by
  unfold readSegment; split <;> rfl

end Sys2Proof.Machine
end

