-- ==== Sys2Proof/Laws/Ops.lean ====
section
/-! SUPPORT. What the shared operations can do, said once. -/

namespace Sys2Proof.Machine

/-- With a request held, an operation returns its response. -/
theorem answer_of_busy {s : State} {req : Request} (op : List Byte → Response) (h : s.phase = .busy req) :
    answer op s = .next (respond (op req.args) s) := by
  simp [answer, h]

/-- With none held, there is nothing to answer. -/
theorem answer_of_idle {s : State} (op : List Byte → Response) (h : s.phase = .idle) :
    answer op s = .fault .noRequest := by
  simp [answer, h]

/-- All an operation can do: it answers the request held. -/
theorem answer_eq_next {op : List Byte → Response} {s t : State} :
    answer op s = .next t ↔ ∃ req, s.phase = .busy req ∧ t = respond (op req.args) s := by
  cases hp : s.phase with
  | idle => simp [answer_of_idle op hp]
  | busy req => simp [answer_of_busy op hp, eq_comm]

/-- The instruction is one of the two header rows of a compressed line. -/
def isHeader : Instr → Bool
  | .litHeader _ => true
  | .repHeader _ => true
  | _ => false

/-- Every operation of the block answers with the response `Perform` gives it. -/
theorem exec_eq_answer {i : Instr} (hi : isHeader i = false) {s : State} {req : Request} (hp : s.phase = .busy req) :
    exec i s = .next (respond (operationResponse i req) s) := by
  cases i <;> first | exact answer_of_busy _ hp | simp [isHeader] at hi

/-- No operation of the block runs in IDLE. -/
theorem exec_of_idle {i : Instr} (hi : isHeader i = false) {s : State} (hp : s.phase = .idle) :
    exec i s = .fault .noRequest := by
  cases i <;> first | exact answer_of_idle _ hp | simp [isHeader] at hi

/-- All an operation of the block can do. -/
theorem exec_eq_next {i : Instr} (hi : isHeader i = false) {s t : State} (h : exec i s = .next t) :
    ∃ req, s.phase = .busy req ∧ t = respond (operationResponse i req) s := by
  cases hp : s.phase with
  | idle => simp [exec_of_idle hi hp] at h
  | busy req =>
    rw [exec_eq_answer hi hp] at h
    exact ⟨req, rfl, (Host.Outcome.next.inj h).symm⟩

/-- The reference decoder's round leaves the block alone: only `reader` is written. -/
theorem readSegment_eq (found : Option (Segment × List Byte)) (s : State) :
    readSegment found s = { s with reader := (readSegment found s).reader } := by
  unfold readSegment; split <;> rfl

/-- All that letting the work advance can do: nothing, or one more byte for a COMPRESS request whose operands are admitted, or
for a DECODE_STATUS request. -/
theorem advanceWork_cases (s : State) :
    advanceWork s = s ∨
    (∃ req t, s.phase = .busy req ∧ decodeCmd req.cmd = .ok (.compress t) ∧ compressAdmits t req.args ∧
      advanceWork s = { s with work := advanceCompress t.toNat req.args s.work }) ∨
    (∃ req, s.phase = .busy req ∧ decodeCmd req.cmd = .ok .decodeStatus ∧
      advanceWork s = { s with work := advanceStatus req.args s.work }) := by
  cases hp : s.phase with
  | idle => left; simp only [advanceWork, hp]
  | busy req =>
    cases hd : decodeCmd req.cmd with
    | error e => left; simp only [advanceWork, hp, hd]
    | ok i =>
      cases i with
      | compress t =>
        by_cases ha : compressAdmits t req.args
        · exact .inr (.inl ⟨req, t, rfl, hd, ha, by simp only [advanceWork, hp, hd, if_pos ha]⟩)
        · left; simp only [advanceWork, hp, hd, if_neg ha]
      | decodeStatus => exact .inr (.inr ⟨req, rfl, hd, by simp only [advanceWork, hp, hd]⟩)
      | _ => left; simp only [advanceWork, hp, hd]

/-- A COMPRESS request turned away for its operands never gets working state (R110, R105). -/
theorem advanceWork_of_not_admitted {s : State} {req : Request} {t : Byte} (hp : s.phase = .busy req)
    (hd : decodeCmd req.cmd = .ok (.compress t)) (ha : ¬ compressAdmits t req.args) : advanceWork s = s := by
  simp only [advanceWork, hp, hd, if_neg ha]

/-- Letting the work advance writes `work` alone. -/
theorem advanceWork_eq (s : State) : advanceWork s = { s with work := (advanceWork s).work } := by
  unfold advanceWork; (repeat' split) <;> rfl

end Sys2Proof.Machine
end

