-- ==== Sys2Proof/Laws/ReferenceDecoder.lean ====
section
/-! SUPPORT. One round of the reference decoder, and the equations of `parse`. -/

namespace Sys2Proof.Machine

/-- A segment read takes at least its header away. -/
theorem takeSegment_rest_length {h : Byte} {bs rest : List Byte} {seg : Segment}
    (hs : takeSegment h bs = some (seg, rest)) : rest.length + 2 ≤ bs.length := by
  unfold takeSegment takeLiteral takeRepeat at hs
  (repeat' split at hs) <;> simp at hs <;> obtain ⟨-, rfl⟩ := hs <;> simp <;> omega

/-- A header row's meaning is the round of `parse` its header opens. -/
theorem exec_decodeHeader (h : Byte) (s : State) :
    exec (decodeHeader h) s = .next (readSegment (takeSegment h s.reader.rest) s) := by
  unfold decodeHeader takeSegment
  split <;> rfl

/-- The segments `parse` has found in front of a result. -/
def ReadResult.after (segs : List Segment) : ReadResult → ReadResult
  | .segments more => .segments (segs ++ more)
  | .malformed => .malformed

/-- The loop of `parse` puts the segments found before in front. -/
theorem parseLoop_after (fuel : Nat) (bs : List Byte) (segs : List Segment) :
    parseLoop fuel bs segs = (parseLoop fuel bs []).after segs := by
  induction fuel generalizing bs segs with
  | zero => cases bs <;> simp [parseLoop, ReadResult.after]
  | succ fuel ih =>
    cases bs with
    | nil => simp [parseLoop, ReadResult.after]
    | cons h bs =>
      simp only [parseLoop]
      split
      · rfl
      · rename_i seg rest _
        rw [ih rest (segs ++ [seg]), ih rest ([] ++ [seg])]
        cases parseLoop fuel rest [] <;> simp [ReadResult.after]

/-- The bound on the rounds of `parse` does not matter once it reaches the length. -/
theorem parseLoop_of_le {fuel : Nat} {bs : List Byte} (h : bs.length ≤ fuel) : parseLoop fuel bs [] = parse bs := by
  induction fuel using Nat.strong_induction_on generalizing bs with
  | _ fuel ih =>
    unfold parse
    cases bs with
    | nil => cases fuel <;> simp [parseLoop]
    | cons b bs =>
      cases fuel with
      | zero => simp at h
      | succ fuel =>
        simp only [List.length_cons, parseLoop]
        split
        · rfl
        · rename_i seg rest hs
          have hr := takeSegment_rest_length hs
          simp only [List.length_cons] at hr h
          rw [parseLoop_after _ _ ([] ++ [seg]), parseLoop_after _ _ ([] ++ [seg]), ih fuel (by omega) (by omega),
            ih bs.length (by omega) (by omega)]

@[simp] theorem parse_nil : parse [] = .segments [] := rfl

/-- `parse` by its own loop body (R120). -/
theorem parse_cons (h : Byte) (bs : List Byte) :
    parse (h :: bs) =
      match takeSegment h (h :: bs) with
      | none => .malformed
      | some (seg, rest) => (parse rest).after [seg] := by
  rw [← parseLoop_of_le (fuel := bs.length + 1) (by simp)]
  cases hs : takeSegment h (h :: bs) with
  | none => simp only [parseLoop, hs]
  | some found =>
    obtain ⟨seg, rest⟩ := found
    have hr := takeSegment_rest_length hs
    simp only [List.length_cons] at hr
    simp only [parseLoop, hs]
    rw [parseLoop_after, parseLoop_of_le (by omega)]
    rfl

@[simp] theorem expand_nil : expand [] = [] := rfl

theorem expand_cons (seg : Segment) (segs : List Segment) : expand (seg :: segs) = expandSegment seg ++ expand segs := rfl

theorem expand_append (a b : List Segment) : expand (a ++ b) = expand a ++ expand b := by
  simp [expand]

end Sys2Proof.Machine
end

