-- ==== Sys2Proof/Laws/Step.lean ====
section
/-! SUPPORT. What one step can do, said once. -/

namespace Sys2Proof.Machine

/-- No command word decodes to a header row. -/
theorem isHeader_of_decodeCmd {w : CmdWord} {i : Instr} (h : decodeCmd w = .ok i) : isHeader i = false := by
  obtain ⟨-, h | h | ⟨c, h⟩ | h | h⟩ := decodeCmd_ok h
  · rw [h.2.2.2]; rfl
  · rw [h.2.2.2]; rfl
  · rw [h.2.2.2.2]; cases c <;> rfl
  · rw [h.2.2]; rfl
  · rw [h.2.2.2.2]; rfl

/-- What fetching comes to: an instruction performed, or a move. -/
def carryOut (f : Fetched) (s : State) : Host.Outcome State Fault Refusal :=
  match f with
  | .run i => exec i s
  | .moved t => .next t

theorem step_eq (s : State) : step s = carryOut (fetch s) s := rfl

@[simp] theorem carryOut_moved (t s : State) : carryOut (.moved t) s = .next t := rfl

/-- The request held is answered with `Perform`, whether its word decodes or not. -/
theorem carryOut_fetchRequest {s : State} {req : Request} (hp : s.phase = .busy req) :
    carryOut (fetchRequest req s) s = .next (respond (perform req) s) := by
  cases hd : decodeCmd req.cmd with
  | ok i => simpa only [fetchRequest, perform, hd, carryOut] using exec_eq_answer (isHeader_of_decodeCmd hd) hp
  | error e => cases e; simp only [fetchRequest, perform, hd, carryOut, raiseError]

/-- In BUSY the block answers; in IDLE it moves on. -/
theorem carryOut_performOr (o s : State) :
    carryOut (performOr o s) s =
      match s.phase with
      | .busy req => .next (respond (perform req) s)
      | .idle => .next o := by
  cases hp : s.phase with
  | busy req => simpa only [performOr, hp] using carryOut_fetchRequest hp
  | idle => simp only [performOr, hp, carryOut]

theorem step_block {s : State} (h : s.active = .block) : step s = carryOut (blockFetch s.script s) s := by
  simp [step_eq, fetch, h]

theorem step_reader_end {s : State} (h : s.active = .reader) (hr : s.reader.rest = []) :
    step s = .next { s with active := .block } := by
  simp [step_eq, fetch, h, readerFetch, hr]

theorem step_reader_header {s : State} {b : Byte} {rest : List Byte} (h : s.active = .reader)
    (hr : s.reader.rest = b :: rest) : step s = .next (readSegment (takeSegment b s.reader.rest) s) := by
  rw [step_eq, fetch, h]
  simp only [readerFetch, hr]
  rw [← hr]
  exact exec_decodeHeader b s

/-- All the moves a step can make. -/
inductive StepMove (s : State) : State → Prop where
  | readerEnd (ha : s.active = .reader) (hr : s.reader.rest = []) : StepMove s { s with active := .block }
  | readerRound (b : Byte) (rest : List Byte) (ha : s.active = .reader) (hr : s.reader.rest = b :: rest) :
      StepMove s (readSegment (takeSegment b s.reader.rest) s)
  | answered (req : Request) (ha : s.active = .block) (hp : s.phase = .busy req) :
      StepMove s (respond (perform req) s)
  | accepted (req : Request) (rest : List Event) (ha : s.active = .block) (hp : s.phase = .idle)
      (hs : s.script = .send req :: rest) : StepMove s (acceptRequest req { s with script := rest })
  | taken (rest : List Event) (r : Response) (rs : List Response) (ha : s.active = .block)
      (hs : s.script = .take :: rest) (hr : s.responses = r :: rs) :
      StepMove s { s with script := rest, responses := rs, received := s.received ++ [r] }
  | nothingToTake (rest : List Event) (ha : s.active = .block) (hp : s.phase = .idle) (hs : s.script = .take :: rest)
      (hr : s.responses = []) : StepMove s { s with script := rest }
  | awaited (rest : List Event) (ha : s.active = .block) (hp : s.phase = .idle) (hs : s.script = .awaitIdle :: rest) :
      StepMove s { s with script := rest }
  | wasReset (rest : List Event) (ha : s.active = .block) (hs : s.script = .reset :: rest) :
      StepMove s (resetBlock { s with script := rest })
  | progressed (rest : List Event) (ha : s.active = .block) (hs : s.script = .progress :: rest) :
      StepMove s (advanceWork { s with script := rest })
  | lineHanded (bs : List Byte) (rest : List Event) (ha : s.active = .block) (hp : s.phase = .idle)
      (hs : s.script = .readLine bs :: rest) :
      StepMove s { s with script := rest, active := .reader, reader := { rest := bs, result := .segments [] } }
  | stayed (ha : s.active = .block) (hp : s.phase = .idle) (hs : s.script = []) : StepMove s s

/-- What performing the request held, or else moving on, comes to. -/
theorem performOr_move {o s t : State} (h : carryOut (performOr o s) s = .next t) :
    (∃ req, s.phase = .busy req ∧ t = respond (perform req) s) ∨ (s.phase = .idle ∧ t = o) := by
  rw [carryOut_performOr] at h
  split at h
  · rename_i req hp; exact .inl ⟨req, hp, (Host.Outcome.next.inj h).symm⟩
  · rename_i hp; exact .inr ⟨hp, (Host.Outcome.next.inj h).symm⟩

/-- All a block's step can do. -/
theorem blockFetch_move {s t : State} (ha : s.active = .block) (h : carryOut (blockFetch s.script s) s = .next t) :
    StepMove s t := by
  unfold blockFetch at h
  split at h
  · rename_i hs
    obtain ⟨req, hp, rfl⟩ | ⟨hp, rfl⟩ := performOr_move h
    exacts [.answered req ha hp, .stayed ha hp hs]
  · rename_i req rest hs
    obtain ⟨cur, hp, rfl⟩ | ⟨hp, rfl⟩ := performOr_move h
    exacts [.answered cur ha hp, .accepted req rest ha hp hs]
  · rename_i rest hs
    split at h
    · rename_i r rs hr
      obtain rfl := Host.Outcome.next.inj h
      exact .taken rest r rs ha hs hr
    · rename_i hr
      obtain ⟨cur, hp, rfl⟩ | ⟨hp, rfl⟩ := performOr_move h
      exacts [.answered cur ha hp, .nothingToTake rest ha hp hs hr]
  · rename_i rest hs
    obtain ⟨cur, hp, rfl⟩ | ⟨hp, rfl⟩ := performOr_move h
    exacts [.answered cur ha hp, .awaited rest ha hp hs]
  · rename_i rest hs
    obtain rfl := Host.Outcome.next.inj h
    exact .wasReset rest ha hs
  · rename_i rest hs
    obtain rfl := Host.Outcome.next.inj h
    exact .progressed rest ha hs
  · rename_i bs rest hs
    obtain ⟨cur, hp, rfl⟩ | ⟨hp, rfl⟩ := performOr_move h
    exacts [.answered cur ha hp, .lineHanded bs rest ha hp hs]

/-- All a step can do: if it answers a next state, it made one of the moves. -/
theorem step_move {s t : State} (h : step s = .next t) : StepMove s t := by
  have hact : s.active = .reader ∨ s.active = .block := by cases s.active <;> simp
  obtain ha | ha := hact
  · cases hr : s.reader.rest with
    | nil =>
      rw [step_reader_end ha hr] at h
      obtain rfl := Host.Outcome.next.inj h
      exact .readerEnd ha hr
    | cons b rest =>
      rw [step_reader_header ha hr] at h
      obtain rfl := Host.Outcome.next.inj h
      exact .readerRound b rest ha hr
  · rw [step_block ha] at h
    exact blockFetch_move ha h

@[simp] theorem runSteps_zero (s : State) : runSteps 0 s = .next s := rfl

/-- A run goes on from the state its first step answers. -/
theorem runSteps_succ_of_next {s t : State} (h : step s = .next t) (k : Nat) : runSteps (k + 1) s = runSteps k t := by
  simp [runSteps, h]

/-- One step of the host's run of a machine. -/
theorem core_run_succ_of_next {M : Host.Core} {s t : M.State} (h : M.step s = .next t) (k : Nat) :
    M.run (k + 1) s = M.run k t := by
  simp [Host.Core.run, h]

/-- The run of the statements is the host's run of the machine. -/
theorem core_run_of_runSteps {k : Nat} {s t : State} (h : runSteps k s = .next t) :
    Host.Core.run Sys2Proof.core k s = .next t := by
  induction k generalizing s with
  | zero => exact h
  | succ k ih =>
    cases hs : step s with
    | next u =>
      rw [runSteps_succ_of_next hs] at h
      exact (core_run_succ_of_next (M := Sys2Proof.core) hs k).trans (ih h)
    | fault r => simp [runSteps, hs] at h
    | refused r => simp [runSteps, hs] at h

end Sys2Proof.Machine
end

