-- ==== Sys2Proof/Laws/HostJob.lean ====
section
/-! SUPPORT. The host's job as a parameter of the machine: it writes nothing but what the outside does next, steps only use
it up, and a job that keeps its width is never turned away for a line's length. -/

namespace Sys2Proof.Machine

@[simp] theorem withJob_phase (s : State) (job : HostJob) : (s.withJob job).phase = s.phase := rfl
@[simp] theorem withJob_work (s : State) (job : HostJob) : (s.withJob job).work = s.work := rfl
@[simp] theorem withJob_responses (s : State) (job : HostJob) : (s.withJob job).responses = s.responses := rfl
@[simp] theorem withJob_script (s : State) (job : HostJob) : (s.withJob job).script = job.program := rfl
@[simp] theorem withJob_received (s : State) (job : HostJob) : (s.withJob job).received = s.received := rfl
@[simp] theorem withJob_active (s : State) (job : HostJob) : (s.withJob job).active = s.active := rfl
@[simp] theorem withJob_reader (s : State) (job : HostJob) : (s.withJob job).reader = s.reader := rfl

/-- A step reads the program and changes nothing in it: what is left is the program itself or all behind its first event
(10_state.md R21, "No operation changes which request is performed next"; R29). -/
theorem step_script {s t : State} (h : step s = .next t) : t.script = s.script ∨ ∃ e, s.script = e :: t.script := by
  cases step_move h with
  | accepted req rest ha hp hs => exact .inr ⟨_, hs⟩
  | taken rest r rs ha hs hr => exact .inr ⟨_, hs⟩
  | nothingToTake rest ha hp hs hr => exact .inr ⟨_, hs⟩
  | awaited rest ha hp hs => exact .inr ⟨_, hs⟩
  | wasReset rest ha hs => exact .inr ⟨_, hs⟩
  | progressed rest ha hs => exact .inr ⟨.progress, by rw [hs, advanceWork_script]⟩
  | lineHanded bs rest ha hp hs => exact .inr ⟨_, hs⟩
  | _ => left; simp

/-- Where W_MAX is at least the job's `width_bytes` (92_eei_decisions.md D13), a COMPRESS request that keeps the width, with an
admitted threshold, is answered OK with its line compressed. -/
theorem perform_compress_of_keepsWidth {width : Nat} {req : Request} {t : Byte} (hw : width ≤ Config.wMax)
    (hk : requestKeepsWidth width req = true) (hd : decodeCmd req.cmd = .ok (.compress t)) (ht : t.toNat ≤ 64) :
    perform req = okResponse (compress req.args t.toNat) := by
  simp only [requestKeepsWidth, hd, beq_iff_eq] at hk
  simp only [perform, hd, operationResponse]
  exact compressOp_ok ht (by omega)

end Sys2Proof.Machine
end

