-- ==== Sys2Proof/Laws/PerInstr.lean ====
section
/-! SUPPORT. A family of laws about each instruction as its encoding: the encoding of a well-formed instruction carries the
match bits of its row of spec/opcode_table.json under the row's mask. -/

namespace Sys2Proof.Laws.TablePattern

/-- The row's match and mask, read from spec/opcode_table.json. -/
def rowPattern : Instr → Encoding × Encoding
  | .normalize _ => (.command 0x00000000#32, .command 0xFFFF00FF#32)
  | .compress _ => (.command 0x00000001#32, .command 0xFFFF00FF#32)
  | .ctrlGetStatus => (.command 0x00000002#32, .command 0xFFFFFFFF#32)
  | .ctrlInitialize => (.command 0x00000012#32, .command 0xFFFFFFFF#32)
  | .ctrlRasterMode => (.command 0x00000022#32, .command 0xFFFFFFFF#32)
  | .ctrlExpandedMode => (.command 0x00000032#32, .command 0xFFFFFFFF#32)
  | .ctrlCompressionMode => (.command 0x00000042#32, .command 0xFFFFFFFF#32)
  | .ctrlClearBuffer => (.command 0x00000052#32, .command 0xFFFFFFFF#32)
  | .ctrlPageFeed => (.command 0x00000062#32, .command 0xFFFFFFFF#32)
  | .rasterFrame _ _ => (.command 0x00000003#32, .command 0xFF0000FF#32)
  | .decodeStatus => (.command 0x00000004#32, .command 0xFFFFFFFF#32)
  | .litHeader _ => (.header 0x00#8, .header 0x80#8)
  | .repHeader _ => (.header 0x80#8, .header 0x80#8)

/-- The bits of an encoding a mask selects. -/
def masked : Encoding → Encoding → Option Encoding
  | .command w, .command m => some (.command (w &&& m))
  | .header h, .header m => some (.header (h &&& m))
  | _, _ => none

/-- The encoding carries the row's match bits. -/
def Statement (i : Instr) : Prop :=
  i.wellFormed = true → masked (encode i) (rowPattern i).2 = some (rowPattern i).1

/-- A command word's masked bits, found bit by bit. -/
theorem masked_command {w m v : CmdWord} (h : ∀ j, j < 32 → (w &&& m).getLsbD j = v.getLsbD j) :
    masked (.command w) (.command m) = some (.command v) := by
  simp only [masked, BitVec.eq_of_getLsbD_eq h]

theorem normalize (n : Byte) : Statement (.normalize n) := by
  intro _
  apply masked_command
  intro j hj
  simp only [cmdWord, BitVec.getLsbD_and, BitVec.getLsbD_append]
  interval_cases j <;> simp

theorem compress (t : Byte) : Statement (.compress t) := by
  intro _
  apply masked_command
  intro j hj
  simp only [cmdWord, BitVec.getLsbD_and, BitVec.getLsbD_append]
  interval_cases j <;> simp

theorem ctrlGetStatus : Statement (.ctrlGetStatus) := by
  intro _; rfl

theorem ctrlInitialize : Statement (.ctrlInitialize) := by
  intro _; rfl

theorem ctrlRasterMode : Statement (.ctrlRasterMode) := by
  intro _; rfl

theorem ctrlExpandedMode : Statement (.ctrlExpandedMode) := by
  intro _; rfl

theorem ctrlCompressionMode : Statement (.ctrlCompressionMode) := by
  intro _; rfl

theorem ctrlClearBuffer : Statement (.ctrlClearBuffer) := by
  intro _; rfl

theorem ctrlPageFeed : Statement (.ctrlPageFeed) := by
  intro _; rfl

theorem rasterFrame (n1 : Byte) (n2 : Byte) : Statement (.rasterFrame n1 n2) := by
  intro _
  apply masked_command
  intro j hj
  simp only [cmdWord, BitVec.getLsbD_and, BitVec.getLsbD_append]
  interval_cases j <;> simp

theorem decodeStatus : Statement (.decodeStatus) := by
  intro _; rfl

theorem litHeader (h : Byte) : Statement (.litHeader h) := by
  unfold Statement; revert h; decide

theorem repHeader (h : Byte) : Statement (.repHeader h) := by
  unfold Statement; revert h; decide

end Sys2Proof.Laws.TablePattern
end

