-- ==== Sys2Proof/Tests/Slice0.lean ====
section
/-! SUPPORT. Tests: the smoke of WellFormed, one written-out word for every instruction, the spec's own worked examples
(95_test_vectors.md), and a witness for every statement that has hypotheses. -/

namespace Sys2Proof.Tests

open Sys2Proof Sys2Proof.Machine

/-- A request. -/
def req (cmd : CmdWord) (args : List Byte) : Request := { cmd := cmd, args := args }

/-- The state after reset, but for a request held. -/
def busy (cmd : CmdWord) (args : List Byte) : State := { State.reset with phase := .busy (req cmd args) }

/-- The state after reset, but for a line of which the reference decoder has read nothing. -/
def reading (bs : List Byte) : State :=
  { State.reset with active := .reader, reader := { rest := bs, result := .segments [] } }

/-- The state after reset, but for what the outside does next. -/
def scripted (script : List Event) : State := { State.reset with script := script }

/-- The status frame of 95_test_vectors.md section 2.5: zeros, but for byte 18 and the last byte. -/
def frame (kind last : Byte) : List Byte := List.replicate 18 0 ++ kind :: List.replicate 12 0 ++ [last]

/-- The responses waiting after an outcome. -/
def answers : Host.Outcome State Fault Refusal → List Response
  | .next t => t.responses
  | .fault _ => []
  | .refused _ => []

/-- The response of an OK without a record. -/
def okData (data : List Byte) : List Response := [{ code := .ok, data := data, record := none, info := 0 }]

/-! ## WellFormed: each check refuses an ill-formed term -/

theorem test_literal_header_above_7F_refused : (Instr.litHeader 0x80).wellFormed = false := by decide

theorem test_repeat_header_below_80_refused : (Instr.repHeader 0x7F).wellFormed = false := by decide

/-! ## Decoding: a word for every instruction, its fields written out by 30_encoding.md R60-R64 and R69

The bytes of a command word below, from the left: RSV, B, A, then SEL and OP. -/

theorem test_decode_normalize : decodeTableWord 32 0x00000800 = some (.normalize 8) := by decide
theorem test_decode_compress : decodeTableWord 32 0x00000301 = some (.compress 3) := by decide
theorem test_decode_ctrl_get_status : decodeTableWord 32 0x00000002 = some .ctrlGetStatus := by decide
theorem test_decode_ctrl_initialize : decodeTableWord 32 0x00000012 = some .ctrlInitialize := by decide
theorem test_decode_ctrl_raster_mode : decodeTableWord 32 0x00000022 = some .ctrlRasterMode := by decide
theorem test_decode_ctrl_expanded_mode : decodeTableWord 32 0x00000032 = some .ctrlExpandedMode := by decide
theorem test_decode_ctrl_compression_mode : decodeTableWord 32 0x00000042 = some .ctrlCompressionMode := by decide
theorem test_decode_ctrl_clear_buffer : decodeTableWord 32 0x00000052 = some .ctrlClearBuffer := by decide
theorem test_decode_ctrl_page_feed : decodeTableWord 32 0x00000062 = some .ctrlPageFeed := by decide
theorem test_decode_raster_frame : decodeTableWord 32 0x00120503 = some (.rasterFrame 0x05 0x12) := by decide
theorem test_decode_decode_status : decodeTableWord 32 0x00000004 = some .decodeStatus := by decide
theorem test_decode_lit_header : decodeTableWord 8 0x7F = some (.litHeader 0x7F) := by decide
theorem test_decode_rep_header : decodeTableWord 8 0x80 = some (.repHeader 0x80) := by decide

/-- Vectors P1, K8, K10, K11, F7, F8: reserved words are rejected by name. -/
theorem test_reserved_words :
    [0x00000005, 0x00000072, 0x00000102, 0x00010002, 0x01000003, 0x00000013].map decodeCmd =
      ([0x00000005, 0x00000072, 0x00000102, 0x00010002, 0x01000003, 0x00000013] : List CmdWord).map
        fun w => .error (.illegalOperation w) := by
  decide

/-! ## Meanings: the spec's vectors (95_test_vectors.md section 2) -/

/-- N4: -129 wraps into the literal range. -/
theorem test_normalize_wraps :
    answers (step (busy 0x00000800 [0xFF, 0xFF, 0xFF, 0xFF, 0xFF, 0xFF, 0xFF, 0x7F])) =
      okData [0, 0, 0, 0, 0, 0, 0, 0x7F] := by decide

/-- P5: BAD_OPERAND outranks the length error. -/
theorem test_normalize_bad_operand_first :
    answers (step (busy 0x00004100 [1, 2, 3])) = [errorResponse .badOperand 0x41] := by decide

/-- Scenario 1: the line compressed with threshold 3. -/
theorem test_compress_scenario_1 :
    compress [0, 0, 0, 0, 0, 1, 1, 1, 1, 2] 3 = [251, 0, 252, 1, 0, 2] := by decide

/-- CP9 and CP22: a remainder shorter than the threshold borrows. -/
theorem test_compress_borrows :
    compress (List.replicate 129 0xFF) 3 = [0x82, 0xFF, 0xFD, 0xFF] ∧
    compress (List.replicate 129 0) 64 = [0xBF, 0, 0xC0, 0] := by decide +kernel

theorem test_ctrl_get_status : answers (step (busy 0x00000002 [])) = okData [0x1B, 0x69, 0x53] := by decide
theorem test_ctrl_initialize : answers (step (busy 0x00000012 [])) = okData [0x1B, 0x40] := by decide
/-- K12: an argument byte is a length error. -/
theorem test_ctrl_initialize_with_args :
    answers (step (busy 0x00000012 [0])) = [errorResponse .argLengthError 1] := by decide
theorem test_ctrl_raster_mode : answers (step (busy 0x00000022 [])) = okData [0x1B, 0x69, 0x61, 0x01] := by decide
theorem test_ctrl_expanded_mode : answers (step (busy 0x00000032 [])) = okData [0x1B, 0x69, 0x4B, 0x80] := by decide
theorem test_ctrl_compression_mode : answers (step (busy 0x00000042 [])) = okData [0x4D, 0x02] := by decide
theorem test_ctrl_clear_buffer :
    answers (step (busy 0x00000052 [])) = okData [0x5A, 0x5A, 0x5A, 0x5A, 0x5A, 0x5A] := by decide
theorem test_ctrl_page_feed : answers (step (busy 0x00000062 [])) = okData [0x0C] := by decide

/-- Scenario 3. -/
theorem test_raster_frame_scenario_3 :
    answers (step (busy 0x00000503 [0xAA, 0xBB, 0xCC, 0xCC, 0xCC])) =
      okData [0x47, 0x05, 0x00, 0xAA, 0xBB, 0xCC, 0xCC, 0xCC] := by decide

/-- F6: n1 and n2 need not match the payload. -/
theorem test_raster_frame_unchecked :
    answers (step (busy 0x00090903 [1, 2])) = okData [0x47, 9, 9, 1, 2] := by decide

/-- S17: every field of the record distinct, an unmapped kind, a big-endian Expansion. -/
theorem test_decode_status_fields :
    answers (step (busy 0x00000004 ((List.range 32).map (BitVec.ofNat 8)))) =
      [{ code := .unrecognizedStatusKind, data := [], info := 0x12, record := some
          { headMark := 0, size := 1, brotherCode := 2, series := 3, model := 4, country := 5, info := 6, reserved := 7,
            error1 := 8, error2 := 9, mediaWidth := 10, mediaKind := 11, nColors := 12, font := 13, nipponFont := 14,
            mode := 15, density := 16, mediaLength := 17, statusKind := 18, phaseKind := 19, phaseNumberUpper := 20,
            phaseNumberLower := 21, noticeNumber := 22, reserved23 := 23, expansion := 1736447835066146335,
            kind := .unrecognized 18 } }] := by decide

/-- P9: a short frame is a length error, and its kind is not looked at. -/
theorem test_decode_status_short :
    answers (step (busy 0x00000004 (List.replicate 18 0 ++ 9 :: List.replicate 12 0))) =
      [errorResponse .frameLengthError 0x1F] := by decide

/-- R120 on the last segment of scenario 1: a literal of one byte. -/
theorem test_lit_header : exec (.litHeader 0) (reading [0, 2]) =
    .next { reading [] with reader := { rest := [], result := .segments [.lit [2]] } } := by rfl

/-- R120 on the first segment of scenario 1: five bytes 0. -/
theorem test_rep_header : exec (.repHeader 251) (reading [251, 0, 252, 1]) =
    .next { reading [] with reader := { rest := [252, 1], result := .segments [.rep 0 5] } } := by rfl

/-- The table's conventions: withFetchWord runs the row's instruction next, here with the script first resetting. -/
theorem test_fetch_word :
    answers (step ((scripted [.reset]).withFetchWord 32 0x00000062)) = okData [0x0C] := by decide

/-- R120: a truncated line is MALFORMED, after a segment read. -/
theorem test_parse_truncated : parse [251, 0, 2, 7, 7] = .malformed := by decide

/-- R29 and R216: a job of lines of 3 bytes, its first request answered; and a job whose line is short, which R216 forbids the
host and the block does not check. -/
theorem test_job :
    let send := fun n => Event.send (req 0x00000301 (List.replicate n 1))
    let job : HostJob := { widthBytes := 3, program := [.send (req 0x00000012 []), send 3] }
    job.sendsWholeScanlines = true ∧ answers (runJob job 2) = okData [0x1B, 0x40] ∧
    HostJob.sendsWholeScanlines { widthBytes := 3, program := [send 2] } = false := by decide

/-- COMPRESS with T = 65 is turned away, and builds no working state first. -/
theorem test_no_work_beyond_limit :
    step { busy 0x00004101 [7] with script := [.progress] } = .next (busy 0x00004101 [7]) := by rfl

/-! ## The assembler (30_encoding.md R72-R74; 95_test_vectors.md section 3) -/

theorem test_assemble_comment : assembleLine "  ; scenario 1" = .blank := by decide
theorem test_assemble_pseudo :
    assembleLine "RASTERC  [0xFB,0x00,0xFC,0x01,0x00,0x02] ; six bytes" =
      .request (req 0x00000603 [0xFB, 0, 0xFC, 1, 0, 2]) := by decide
/-- Leading zeros, the model's choice (log 10). -/
theorem test_assemble_leading_zeros :
    assembleLine "NORMALIZE 0008, -05" = assembleLine "NORMALIZE 8, -5" ∧
    assembleLine "RASTERC [007]" = assembleLine "RASTERC [7]" := by decide
/-- A program with a wrong line gives no request, the model's choice (log 10). -/
theorem test_assemble_program_with_error : assembleProgram ["CTRL initialize", "HALT"] = none := by decide
theorem test_assemble_error : assembleLine "NORMALIZE 256, 1" = .error ∧ assembleLine "HALT" = .error := by decide
theorem test_assemble_program :
    assembleProgram ["CTRL initialize", "", "COMPRESS 0, [7,7,8]"] =
      some [req 0x00000012 [], req 0x00000001 [7, 7, 8]] := by decide

/-! ## Witnesses: states and operands that meet the hypotheses of a statement, at the boundaries of its clauses -/

theorem witness_DecodeReadsEncodedInstruction :
    ∀ i ∈ [Instr.normalize 0xFF, .compress 0, .ctrlPageFeed, .rasterFrame 0xFF 0, .decodeStatus, .litHeader 0x7F, .repHeader 0x80],
      i.wellFormed = true := by decide

theorem witness_EncodeInvertsDecode :
    decode (.command 0x00FFFF03) = .ok (.rasterFrame 0xFF 0xFF) ∧ decode (.header 0xFF) = .ok (.repHeader 0xFF) := by decide

/-- Each clause of "reserved" alone, at its least value, and the operations next to it. -/
theorem witness_ReservedWordsAreIllegal :
    [0x05, 0x72, 0x10, 0x102, 0x104, 0x00010000, 0x01000000].map decodeCmd =
      ([0x05, 0x72, 0x10, 0x102, 0x104, 0x00010000, 0x01000000] : List CmdWord).map
        (fun w => .error (.illegalOperation w)) ∧
    (∀ w ∈ ([0x04, 0x62, 0x00, 0x103, 0x100, 0x00010003] : List CmdWord), ∃ i, decodeCmd w = .ok i) := by
  refine ⟨by decide, ?_⟩
  intro w hw
  simp only [List.mem_cons, List.not_mem_nil, or_false] at hw
  rcases hw with rfl | rfl | rfl | rfl | rfl | rfl <;> exact ⟨_, rfl⟩

/-- A request held, with nothing to take: the take waits behind the answer. -/
theorem witness_StepRunsHeldRequest :
    let s := { busy 0x00000062 [] with script := [.take] }
    s.active = .block ∧ s.phase = .busy (req 0x00000062 []) ∧ decodeCmd 0x00000062 = .ok .ctrlPageFeed ∧
    (∀ rest, s.script ≠ .reset :: rest) ∧ (∀ rest, s.script ≠ .progress :: rest) ∧
    (∀ rest, s.script = .take :: rest → s.responses = []) := by
  refine ⟨rfl, rfl, by decide, by simp, by simp, fun _ _ => rfl⟩

theorem witness_StepRunsHeader :
    (reading [0x7F, 1]).active = .reader ∧ (reading [0x7F, 1]).reader.rest = 0x7F :: [1] := ⟨rfl, rfl⟩

theorem witness_FetchWordRunsNext :
    decodeTableWord 32 0x00FFFF03 = some (.rasterFrame 0xFF 0xFF) ∧ decodeTableWord 8 0xFF = some (.repHeader 0xFF) := by
  decide

/-- NormalizeResponds and NormalizeTruncates: n = 64 and 8 bytes; n = 65; n = 64 and 7 or 9 bytes. -/
theorem witness_NormalizeResponds :
    (busy 0x00004000 (List.replicate 8 0xFF)).phase = .busy (req 0x00004000 (List.replicate 8 0xFF)) ∧
    (64#8).toNat ≤ 64 ∧ 64 < (65#8).toNat ∧ (List.replicate 8 (0xFF : Byte)).length = 8 ∧
    (List.replicate 7 (0xFF : Byte)).length ≠ 8 ∧ (List.replicate 9 (0xFF : Byte)).length ≠ 8 := by decide

theorem witness_NormalizeTruncates :
    (busy 0x00004000 (List.replicate 8 0xFF)).phase = .busy (req 0x00004000 (List.replicate 8 0xFF)) ∧
    (64#8).toNat ≤ 64 ∧ (List.replicate 8 (0xFF : Byte)).length = 8 := by decide

theorem witness_RunCountLaws :
    normalizeInt (-1) 8 = 255 ∧ normalizeInt (-128) 8 = 128 ∧ normalizeInt 0 8 = 0 ∧ normalizeInt 255 8 = 255 := by decide

theorem witness_BigEndianBytesReadBack :
    (0 : Nat) < 256 ^ 0 ∧ 2 ^ 64 - 1 < 256 ^ 8 ∧ bytesBE 8 (2 ^ 64 - 1) = List.replicate 8 0xFF := by decide

/-- T = 64 and 65, and lines of W_MAX and W_MAX + 1 bytes. -/
theorem witness_CompressResponds :
    (64#8).toNat ≤ 64 ∧ 64 < (65#8).toNat ∧
    (List.replicate Config.wMax (7 : Byte)).length ≤ Config.wMax ∧
    Config.wMax < (List.replicate (Config.wMax + 1) (7 : Byte)).length ∧
    ∃ u r, exec (.compress 64) (busy 0x00004001 [7]) = .next u ∧ u.responses = (busy 0x00004001 [7]).responses ++ [r] := by
  refine ⟨by decide, by decide, by simp, by simp, respond (compressOp 64 [7]) (busy 0x00004001 [7]), compressOp 64 [7], rfl, rfl⟩

theorem witness_RunsAreMaximal :
    runs [0, 0, 1] = [] ++ { value := 0, length := 2 } :: { value := 1, length := 1 } :: [] := by decide

/-- A repeat run of T, one of 128, a literal of 1 and one of 128. -/
theorem witness_SegmentsBoundedAndExact :
    Segment.rep 0 3 ∈ segmentRuns (runs [0, 0, 0, 1]) 3 ∧ Segment.lit [1] ∈ segmentRuns (runs [0, 0, 0, 1]) 3 ∧
    Segment.rep 0 128 ∈ segmentRuns (runs (List.replicate 128 0)) 64 ∧
    Segment.lit ((List.replicate 64 [0, 1]).flatten) ∈ segmentRuns (runs ((List.replicate 64 [0, 1]).flatten)) 64 := by
  decide +kernel

/-- A run of exactly T bytes between two shorter ones, and runs that are all of T - 1 bytes. -/
theorem witness_SegmentationWalk :
    runs [1, 0, 0, 0, 2] = [{ value := 1, length := 1 }] ++ { value := 0, length := 3 } :: [{ value := 2, length := 1 }] ∧
    3 ≤ ({ value := 0, length := 3 } : Run).length ∧
    runs [1, 1, 2, 2] ≠ [] ∧ ∀ r ∈ runs [1, 1, 2, 2], 1 ≤ r.length ∧ r.length < 3 := by decide

/-- A run of T bytes, and one of T - 1 between two of T. -/
theorem witness_ThresholdDecidesWholeRun :
    runs [0, 0, 0, 1, 1, 2, 2, 2] =
      [{ value := 0, length := 3 }] ++ { value := 1, length := 2 } :: [{ value := 2, length := 3 }] ∧
    3 ≤ ({ value := 0, length := 3 } : Run).length ∧ ({ value := 1, length := 2 } : Run).length < 3 := by decide

/-- The four cases at their boundaries: 128; 256; remainder T; remainder T - 1, also for T = 64. -/
theorem witness_RepeatSplitBoundedAndExact :
    repChunks 9 128 3 = [.rep 9 128] ∧ repChunks 9 256 3 = [.rep 9 128, .rep 9 128] ∧
    repChunks 9 131 3 = [.rep 9 128, .rep 9 3] ∧ repChunks 9 130 3 = [.rep 9 127, .rep 9 3] ∧
    repChunks 9 191 64 = [.rep 9 127, .rep 9 64] ∧ repChunks 9 1 0 = [.rep 9 1] := by decide

theorem witness_LiteralSplitExact :
    (List.replicate 129 (7 : Byte)) ≠ [] ∧
    litChunks (List.replicate 129 7) = [.lit (List.replicate 128 7), .lit [7]] := by decide +kernel

/-- An accumulation of 129 bytes. -/
theorem witness_AdjacentLiteralsAreSplits :
    segmentRuns (runs ((List.replicate 64 [0, 1]).flatten ++ [0])) 3 =
      [] ++ .lit ((List.replicate 64 [0, 1]).flatten) :: .lit [0] :: [] := by decide +kernel

theorem witness_SerializedBytes :
    serialize [.rep 0 5, .rep 1 4, .lit [2]] = [251, 0, 252, 1, 0, 2] ∧ serialize [.rep 7 128] = [0x80, 7] ∧
    (List.replicate 128 (7 : Byte)).length ≤ 128 := by decide +kernel

theorem witness_SerializedHeadersDisjoint :
    serializeSegment (.rep 7 1) = [0xFF, 7] ∧ serializeSegment (.rep 7 128) = [0x80, 7] ∧
    serializeSegment (.lit [7]) = [0x00, 7] ∧ serializeSegment (.lit (List.replicate 128 7)) = 0x7F :: List.replicate 128 7 := by
  decide +kernel

theorem witness_CompressRoundTrip : (0 : Nat) ≤ 64 ∧ (64 : Nat) ≤ 64 := by decide

/-- A line whose runs are all shorter than T, one of runs of 1 with T = 1, and T = 3. -/
theorem witness_CompressedLengthBounds :
    (∀ r ∈ runs [1, 1, 2, 2], r.length < 3) ∧ (∀ r ∈ runs [1, 2, 3], r.length = 1) ∧ (1 : Nat) ≤ 1 ∧ (3 : Nat) ≤ 3 := by decide

theorem witness_SmallThresholds : Segment.rep 2 2 ∈ segmentRuns (runs [1, 2, 2, 3]) 2 := by decide

theorem witness_EmptyLineCompressesToNothing :
    (busy 0x00004001 []).phase = .busy (req 0x00004001 []) ∧ (req 0x00004001 []).args = [] ∧ (64#8).toNat ≤ 64 := by decide

theorem witness_ControlSequencesReturned :
    (busy 0x00000002 []).phase = .busy (req 0x00000002 []) ∧ (req 0x00000002 []).args = [] ∧
    (busy 0x00000002 [0]).phase = .busy (req 0x00000002 [0]) ∧ (req 0x00000002 [0]).args ≠ [] := by decide

theorem witness_RasterFrameShape : (busy 0x00FFFF03 []).phase = .busy (req 0x00FFFF03 []) := rfl

/-- Frames of kinds 0, 6, 7 and 255, and arguments of 31 and 33 bytes. -/
theorem witness_DecodeStatusResponds :
    (busy 0x00000004 (frame 6 0)).phase = .busy (req 0x00000004 (frame 6 0)) ∧
    (∀ k ∈ ([0, 6, 7, 255] : List Byte), (frame k 0).length = 32 ∧ (frame k 0)[18]? = some k) ∧
    (6#8).toNat ≤ 6 ∧ 7 ≤ (7#8).toNat ∧
    (List.replicate 31 (0 : Byte)).length ≠ 32 ∧ (List.replicate 33 (0 : Byte)).length ≠ 32 := by decide

theorem witness_StatusKindTable :
    7 ≤ (7#8).toNat ∧ classify 7 = .unrecognized 7 ∧ classify 255 = .unrecognized 255 ∧
    (∀ k ∈ ([6, 7] : List Byte), (decodeFrame (frame k 0)).kind = classify (decodeFrame (frame k 0)).statusKind) ∧
    (decodeFrame (frame 6 0)).statusKind.toNat ≤ 6 ∧ 7 ≤ (decodeFrame (frame 7 0)).statusKind.toNat := by decide

/-- One response of each code an operation raises. -/
theorem witness_ErrorsRaisedExactlyWhereNamed :
    exec .decodeStatus (busy 0x00000004 []) = .next (respond (errorResponse .frameLengthError 0) (busy 0x00000004 [])) ∧
    exec (.normalize 65) (busy 0x00004100 []) = .next (respond (errorResponse .badOperand 65) (busy 0x00004100 [])) ∧
    exec .ctrlPageFeed (busy 0x00000062 [0]) = .next (respond (errorResponse .argLengthError 1) (busy 0x00000062 [0])) ∧
    exec .decodeStatus (busy 0x00000004 (frame 7 0)) =
      .next (respond (recordResponse (decodeFrame (frame 7 0))) (busy 0x00000004 (frame 7 0))) ∧
    (recordResponse (decodeFrame (frame 7 0))).code = .unrecognizedStatusKind := by
  refine ⟨rfl, rfl, rfl, rfl, by decide⟩

/-- A word for each outcome, in the order of the rule. -/
theorem witness_ErrorPriority :
    (perform (req 0x00014100 [])).code = .illegalOperation ∧ (perform (req 0x00004100 [1])).code = .badOperand ∧
    (perform (req 0x00004000 [1])).code = .argLengthError ∧ (perform (req 0x00000004 [1])).code = .frameLengthError ∧
    (perform (req 0x00000004 (frame 7 0))).code = .unrecognizedStatusKind ∧
    (perform (req 0x00000004 (frame 6 0))).code = .ok := by decide

theorem witness_IllegalWordAnswered :
    let s := { busy 0x00000005 [] with script := [.send (req 0x00000062 [])] }
    s.active = .block ∧ s.phase = .busy (req 0x00000005 []) ∧
    decodeCmd 0x00000005 = .error (.illegalOperation 0x00000005) ∧
    (∀ rest, s.script ≠ .reset :: rest) ∧ (∀ rest, s.script ≠ .progress :: rest) ∧
    (∀ rest, s.script = .take :: rest → s.responses = []) := by
  refine ⟨rfl, rfl, by decide, by simp, by simp, by simp⟩

theorem witness_OperationsOnlyRespond :
    (∀ h, Instr.ctrlPageFeed ≠ .litHeader h) ∧ (∀ h, Instr.ctrlPageFeed ≠ .repHeader h) ∧
    exec .ctrlPageFeed (busy 0x00000062 []) = .next (respond (okResponse [0x0C]) (busy 0x00000062 [])) := by
  refine ⟨by simp, by simp, rfl⟩

theorem witness_HeadersLeaveBlockAlone :
    exec (.repHeader 0x80) (reading [0x80, 7]) =
      .next { reading [] with reader := { rest := [], result := .segments [.rep 7 128] } } := rfl

theorem witness_ResponseDependsOnRequestAlone :
    let s := { busy 0x00000301 [1, 1] with work := .compressing (takeByte 3 startCompress 1) }
    s.phase = .busy (req 0x00000301 [1, 1]) ∧ decodeCmd 0x00000301 = .ok (.compress 3) ∧
    (busy 0x00000005 []).phase = .busy (req 0x00000005 []) ∧
    decodeCmd 0x00000005 = .error (.illegalOperation 0x00000005) := by decide

/-- Exactly the bytes the literal needs, and one fewer. -/
theorem witness_LiteralHeaderReads :
    (reading [1, 8, 9]).reader.result = .segments [] ∧ (1#8).toNat + 2 ≤ (reading [1, 8, 9]).reader.rest.length ∧
    (reading [1, 8]).reader.rest.length < (1#8).toNat + 2 := by decide

theorem witness_RepeatHeaderReads :
    (reading [0xFF, 8]).reader.result = .segments [] ∧ (reading [0xFF, 8]).reader.rest = 0xFF :: 8 :: [] ∧
    (reading [0xFF]).reader.rest.length < 2 := by decide

theorem witness_ReaderRunComputesParse :
    (reading [0, 7, 0x80]).active = .reader ∧ (reading [0, 7, 0x80]).reader = { rest := [0, 7, 0x80], result := .segments [] } :=
  ⟨rfl, rfl⟩

theorem witness_ReaderRecoversCompressedLine :
    (3 : Nat) ≤ 64 ∧ (reading (compress [7, 7, 7, 8] 3)).active = .reader ∧
    (reading (compress [7, 7, 7, 8] 3)).reader = { rest := compress [7, 7, 7, 8] 3, result := .segments [] } :=
  ⟨by decide, rfl, rfl⟩

theorem witness_ResetDiscards :
    let s := { busy 0x00000301 [1] with script := [.reset], responses := okData [0x0C] }
    s.active = .block ∧ s.script = .reset :: [] := ⟨rfl, rfl⟩

/-- PhaseMoves and ResponsesKeepRequestOrder: a step that answers, one that accepts and one that resets. -/
theorem witness_PhaseMoves :
    step (busy 0x00000062 []) = .next (respond (okResponse [0x0C]) (busy 0x00000062 [])) ∧
    step (scripted [.send (req 0x00000062 [])]) = .next (busy 0x00000062 []) ∧
    step { busy 0x00000062 [] with script := [.reset] } = .next State.reset := ⟨rfl, rfl, rfl⟩

theorem witness_ResponsesKeepRequestOrder :
    step { scripted [.take] with responses := okData [0x0C] } = .next { State.reset with received := okData [0x0C] } ∧
    step (busy 0x00000062 []) = .next (respond (okResponse [0x0C]) (busy 0x00000062 [])) := ⟨rfl, rfl⟩

/-- In IDLE and in BUSY. -/
theorem witness_RequestAcceptedOnlyInIdle :
    let s := scripted [.send (req 0x00000062 [])]
    let t := { busy 0x00000012 [] with script := [.send (req 0x00000062 [])] }
    s.active = .block ∧ s.script = .send (req 0x00000062 []) :: [] ∧ s.phase = .idle ∧
    t.active = .block ∧ t.script = .send (req 0x00000062 []) :: [] ∧ t.phase = .busy (req 0x00000012 []) :=
  ⟨rfl, rfl, rfl, rfl, rfl, rfl⟩

theorem witness_HostTakesOldestResponse :
    let s := { busy 0x00000062 [] with script := [.take], responses := okData [1] ++ okData [2] }
    s.active = .block ∧ s.script = .take :: [] ∧
    s.responses = { code := .ok, data := [1], record := none, info := 0 } :: okData [2] := ⟨rfl, rfl, rfl⟩

theorem witness_RequestsAnsweredInOrder :
    let reqs := [req 0x00000012 [], req 0x00000005 []]
    let s := scripted (reqs.map Event.send)
    s.active = .block ∧ s.phase = .idle ∧ s.work = .none ∧ s.script = reqs.map Event.send := ⟨rfl, rfl, rfl, rfl⟩

theorem witness_AcceptedRequestAnswered :
    let s := { busy 0x00000301 [1, 1] with script := [.progress, .take, .send (req 0x00000062 [])] }
    s.active = .block ∧ s.phase = .busy (req 0x00000301 [1, 1]) ∧ Event.reset ∉ s.script := by decide

theorem witness_OperationNeedsRequest :
    (∀ h, Instr.decodeStatus ≠ .litHeader h) ∧ (∀ h, Instr.decodeStatus ≠ .repHeader h) ∧ State.reset.phase = .idle := by
  refine ⟨by simp, by simp, rfl⟩

theorem witness_IdleBlockStays :
    State.reset.active = .block ∧ State.reset.phase = .idle ∧ State.reset.script = [] := ⟨rfl, rfl, rfl⟩

/-- In BUSY, where the working state advances, and in IDLE. -/
theorem witness_ProgressChangesWorkAlone :
    let s := { busy 0x00000004 [7] with script := [.progress] }
    s.active = .block ∧ s.script = .progress :: [] ∧
    step s = .next { busy 0x00000004 [7] with work := .receiving [7] } ∧
    (scripted [.progress]).active = .block ∧ (scripted [.progress]).phase = .idle := ⟨rfl, rfl, rfl, rfl, rfl⟩

/-- Two runs of one step, with and without working state. -/
theorem witness_WorkingStateNeverShows :
    runSteps 1 (busy 0x00000062 []) = .next (respond (okResponse [0x0C]) (busy 0x00000062 [])) ∧
    runSteps 1 { busy 0x00000062 [] with work := .receiving [9] } =
      .next (respond (okResponse [0x0C]) (busy 0x00000062 [])) := ⟨rfl, rfl⟩

/-- A state with working state, and its next state. -/
theorem witness_StepKeepsStateInv :
    let s := { busy 0x00000004 [7, 8] with script := [.progress], work := .receiving [7] }
    stateInv s ∧ step s = .next { busy 0x00000004 [7, 8] with work := .receiving [7, 8] } := by
  refine ⟨⟨⟨req 0x00000004 [7, 8], rfl, by decide, rfl⟩, ?_, ?_, ?_⟩, rfl⟩ <;> intro r hr <;>
    simp [busy, State.reset] at hr

/-- Each form in its range and just outside it. -/
theorem witness_AssembledFormsDecode :
    (255 : Nat) ≤ 255 ∧ (255 : Nat) < 256 ∧ (-2 ^ 63 : Int) ≤ -2 ^ 63 ∧ (-2 ^ 63 : Int) ≤ 2 ^ 63 - 1 ∧
    (-2 ^ 63 - 1 : Int) < -2 ^ 63 ∧ (2 ^ 63 - 1 : Int) < 2 ^ 63 := by decide

theorem witness_PseudoInstructionsExpand :
    (List.replicate 255 (0 : Byte)).length ≤ 255 ∧ 255 < (List.replicate 256 (0 : Byte)).length := by decide +kernel

theorem witness_CompressedLineFitsRasterFrame :
    (3 : Nat) ≤ 3 ∧ (64 : Nat) ≤ 64 ∧ (List.replicate 253 (0 : Byte)).length ≤ 253 := by decide +kernel

end Sys2Proof.Tests
end

section
/-! PROOFS. The block's state: its response is a function of the request held (10_state.md R26), and how its phase moves
(R25). -/

namespace Sys2Proof.Machine

/-- `Perform` of a request whose word selects an operation is that operation's response (R26, R66). -/
theorem perform_of_decodeCmd_ok {req : Request} {i : Instr} (hd : decodeCmd req.cmd = .ok i) :
    perform req = operationResponse i req := by
  simp only [perform, hd]

/-- `Perform` of a request whose word selects none is ILLEGAL_OPERATION with the whole word in INFO (R67, R185). -/
theorem perform_of_decodeCmd_error {req : Request} {e : DecodeError} (hd : decodeCmd req.cmd = .error e) :
    perform req = errorResponse .illegalOperation req.cmd := by
  obtain rfl := decodeCmd_error hd
  simp only [perform, hd]

/-- The operation a held request's word decodes to answers with `Perform` of the request, whatever else the state holds
(R26). -/
theorem exec_of_decodeCmd_ok {s : State} {req : Request} {i : Instr} (hp : s.phase = .busy req)
    (hd : decodeCmd req.cmd = .ok i) : exec i s = .next (respond (perform req) s) := by
  rw [perform_of_decodeCmd_ok hd]
  exact exec_eq_answer (isHeader_of_decodeCmd hd) hp

/-- Settles O37: a decoded word is answered by its operation, a rejected one by ILLEGAL_OPERATION. -/
theorem responseDependsOnRequestAlone : Obligations.ResponseDependsOnRequestAlone := by
  intro s req hp
  exact ⟨fun i hd => exec_of_decodeCmd_ok hp hd, fun e hd => perform_of_decodeCmd_error hd⟩

/-- Settles O44, by the moves a step can make: an answer, an acceptance and a reset may change the phase, and every other
move keeps it. A reset in IDLE keeps it too. -/
theorem phaseMoves : Obligations.PhaseMoves := by
  intro s t h
  cases step_move h with
  | answered req ha hp => exact .inr (.inr ⟨req, hp, rfl, .inl rfl⟩)
  | accepted req rest ha hp hs => exact .inr (.inl ⟨hp, req, rest, hs, rfl, rfl⟩)
  | wasReset rest ha hs =>
    cases hp : s.phase with
    | idle => exact .inl rfl
    | busy req => exact .inr (.inr ⟨req, rfl, rfl, .inr ⟨rest, hs, rfl⟩⟩)
  | readerRound b rest ha hr => exact .inl (readSegment_phase _ s)
  | progressed rest ha hs => exact .inl (advanceWork_phase _)
  | readerEnd | taken | nothingToTake | awaited | lineHanded | stayed => exact .inl rfl

end Sys2Proof.Machine
end

section
/-! PROOFS. The order of responses (20_memory.md R53): what each operation over the state does to the responses returned. -/

namespace Sys2Proof.Machine

/-- Returning a response puts it behind all those returned before, taken or not. -/
@[simp] theorem returned_respond (r : Response) (s : State) : returned (respond r s) = returned s ++ [r] := by
  simp only [returned, respond_received, respond_responses, List.append_assoc]

/-- The host taking the oldest response moves it across the boundary between taken and waiting, and so keeps the order. -/
theorem returned_take {s : State} {r : Response} {rs : List Response} (hr : s.responses = r :: rs)
    (rest : List Event) :
    returned { s with script := rest, responses := rs, received := s.received ++ [r] } = returned s := by
  simp only [returned, hr, List.append_assoc, List.singleton_append]

@[simp] theorem returned_readSegment (found : Option (Segment × List Byte)) (s : State) :
    returned (readSegment found s) = returned s := by
  simp only [returned, readSegment_received, readSegment_responses]

@[simp] theorem returned_advanceWork (s : State) : returned (advanceWork s) = returned s := by
  simp only [returned, advanceWork_received, advanceWork_responses]

/-- Settles O47, by the moves a step can make: an answer alone returns a response, a reset alone drops some, and a take
keeps their order. -/
theorem responsesKeepRequestOrder : Obligations.ResponsesKeepRequestOrder := by
  intro s t h
  cases step_move h with
  | answered req ha hp => exact .inr (.inl ⟨req, hp, rfl, returned_respond _ s⟩)
  | wasReset rest ha hs => exact .inr (.inr ⟨rest, ha, hs, rfl, rfl⟩)
  | taken rest r rs ha hs hr => exact .inl (returned_take hr rest)
  | readerRound b rest ha hr => exact .inl (returned_readSegment _ s)
  | progressed rest ha hs => exact .inl (returned_advanceWork _)
  | readerEnd | accepted | nothingToTake | awaited | lineHanded | stayed => exact .inl rfl

end Sys2Proof.Machine
end

section
/-! PROOFS. The encoding (30_encoding.md): the reserved command words (R67), read off the decoder's rows (R66), and the
assembler's pseudo-instructions (R73). -/

namespace Sys2Proof

theorem cmdOp_toNat (w : CmdWord) : (cmdOp w).toNat = w.toNat % 16 := by
  simp [cmdOp]

theorem cmdSel_toNat (w : CmdWord) : (cmdSel w).toNat = w.toNat / 2 ^ 4 % 16 := by
  simp [cmdSel, Nat.shiftRight_eq_div_pow]

theorem cmdA_toNat (w : CmdWord) : (cmdA w).toNat = w.toNat / 2 ^ 8 % 256 := by
  simp [cmdA, Nat.shiftRight_eq_div_pow]

theorem cmdB_toNat (w : CmdWord) : (cmdB w).toNat = w.toNat / 2 ^ 16 % 256 := by
  simp [cmdB, Nat.shiftRight_eq_div_pow]

/-- RSV is the top field, so nothing above it has to be cut off. -/
theorem cmdRsv_toNat (w : CmdWord) : (cmdRsv w).toNat = w.toNat / 2 ^ 24 := by
  have hw := w.isLt
  simp only [cmdRsv, BitVec.extractLsb'_toNat, Nat.shiftRight_eq_div_pow]
  omega

/-- Seven selectors name a control sequence (R63). -/
theorem exists_selectorOfCtrl_iff {sel : BitVec 4} : (∃ c, sel = selectorOfCtrl c) ↔ sel.toNat < 7 := by
  constructor
  · rintro ⟨c, rfl⟩
    cases c <;> decide
  · intro h
    have hn : (ctrlOfSelector sel).isSome := by revert h; revert sel; decide
    obtain ⟨c, hc⟩ := Option.isSome_iff_exists.mp hn
    exact ⟨c, (selectorOfCtrl_of_ctrlOfSelector hc).symm⟩

/-- A command word is decoded to an instruction exactly when RSV is 0 and its fields are that operation's row (R64, R66). -/
theorem decodeCmd_eq_ok_iff {w : CmdWord} {i : Instr} :
    decodeCmd w = .ok i ↔
      cmdRsv w = 0 ∧
      ((cmdOp w = 0x0 ∧ cmdSel w = 0 ∧ cmdB w = 0 ∧ i = .normalize (cmdA w)) ∨
       (cmdOp w = 0x1 ∧ cmdSel w = 0 ∧ cmdB w = 0 ∧ i = .compress (cmdA w)) ∨
       (∃ c, cmdOp w = 0x2 ∧ cmdSel w = selectorOfCtrl c ∧ cmdA w = 0 ∧ cmdB w = 0 ∧ i = instrOfCtrl c) ∨
       (cmdOp w = 0x3 ∧ cmdSel w = 0 ∧ i = .rasterFrame (cmdA w) (cmdB w)) ∨
       (cmdOp w = 0x4 ∧ cmdSel w = 0 ∧ cmdA w = 0 ∧ cmdB w = 0 ∧ i = .decodeStatus)) := by
  refine ⟨decodeCmd_ok, ?_⟩
  rintro ⟨hr, ⟨ho, hs, hb, rfl⟩ | ⟨ho, hs, hb, rfl⟩ | ⟨c, ho, hs, ha, hb, rfl⟩ | ⟨ho, hs, rfl⟩ | ⟨ho, hs, ha, hb, rfl⟩⟩
  · simp [decodeCmd, hr, ho, hs, hb]
  · simp [decodeCmd, hr, ho, hs, hb]
  · simp [decodeCmd, decodeCtrl, hr, ho, hs, ha, hb]
  · simp [decodeCmd, hr, ho, hs]
  · simp [decodeCmd, hr, ho, hs, ha, hb]

/-- The reserved words of R67, clause by clause, on the fields of R60. -/
def reservedWord (w : CmdWord) : Prop :=
  5 ≤ (cmdOp w).toNat ∨ ((cmdOp w).toNat = 2 ∧ 7 ≤ (cmdSel w).toNat) ∨
  ((cmdOp w).toNat ≠ 2 ∧ (cmdSel w).toNat ≠ 0) ∨
  (((cmdOp w).toNat = 2 ∨ (cmdOp w).toNat = 4) ∧ (cmdA w).toNat ≠ 0) ∨
  ((cmdOp w).toNat ≠ 3 ∧ (cmdB w).toNat ≠ 0) ∨ (cmdRsv w).toNat ≠ 0

/-- The words no clause of R67 reserves, by their fields as the decoder compares them. -/
theorem not_reservedWord_iff {w : CmdWord} :
    ¬ reservedWord w ↔
      cmdOp w < 5 ∧ (cmdOp w = 2 → ∃ c, cmdSel w = selectorOfCtrl c) ∧ (cmdOp w ≠ 2 → cmdSel w = 0) ∧
      (cmdOp w = 2 ∨ cmdOp w = 4 → cmdA w = 0) ∧ (cmdOp w ≠ 3 → cmdB w = 0) ∧ cmdRsv w = 0 := by
  rw [exists_selectorOfCtrl_iff]
  simp [reservedWord, BitVec.toNat_eq, BitVec.lt_def]

/-- No operation's row has a reserved field. -/
theorem not_reservedWord_of_decodeCmd_ok {w : CmdWord} {i : Instr} (h : decodeCmd w = .ok i) : ¬ reservedWord w := by
  rw [not_reservedWord_iff]
  obtain ⟨hr, ⟨ho, hs, hb, -⟩ | ⟨ho, hs, hb, -⟩ | ⟨c, ho, hs, ha, hb, -⟩ | ⟨ho, hs, -⟩ | ⟨ho, hs, ha, hb, -⟩⟩ :=
    decodeCmd_ok h
  · simp [hr, ho, hs, hb]
  · simp [hr, ho, hs, hb]
  · simp [hr, ho, hs, ha, hb]
  · simp [hr, ho, hs]
  · simp [hr, ho, hs, ha, hb]

/-- The clauses of R67 leave, for each OP from 0 to 4, exactly the fields of its row. -/
theorem decodeCmd_ok_of_not_reservedWord {w : CmdWord} (h : ¬ reservedWord w) : ∃ i, decodeCmd w = .ok i := by
  obtain ⟨hop, hctrl, hsel, ha, hb, hr⟩ := not_reservedWord_iff.mp h
  have hrow : cmdOp w = 0 ∨ cmdOp w = 1 ∨ cmdOp w = 2 ∨ cmdOp w = 3 ∨ cmdOp w = 4 := by bv_omega
  simp only [decodeCmd_eq_ok_iff]
  rcases hrow with ho | ho | ho | ho | ho
  · exact ⟨_, hr, .inl ⟨ho, hsel (by simp [ho]), hb (by simp [ho]), rfl⟩⟩
  · exact ⟨_, hr, .inr (.inl ⟨ho, hsel (by simp [ho]), hb (by simp [ho]), rfl⟩)⟩
  · obtain ⟨c, hc⟩ := hctrl ho
    exact ⟨_, hr, .inr (.inr (.inl ⟨c, ho, hc, ha (.inl ho), hb (by simp [ho]), rfl⟩))⟩
  · exact ⟨_, hr, .inr (.inr (.inr (.inl ⟨ho, hsel (by simp [ho]), rfl⟩)))⟩
  · exact ⟨_, hr, .inr (.inr (.inr (.inr ⟨ho, hsel (by simp [ho]), ha (.inr ho), hb (by simp [ho]), rfl⟩)))⟩

/-- A word is rejected, by name and with the word, exactly when it is reserved (R66, R67). -/
theorem decodeCmd_error_iff {w : CmdWord} : decodeCmd w = .error (.illegalOperation w) ↔ reservedWord w := by
  refine ⟨fun he => ?_, fun hw => ?_⟩
  · by_contra hn
    obtain ⟨i, hi⟩ := decodeCmd_ok_of_not_reservedWord hn
    cases he.symm.trans hi
  · cases hd : decodeCmd w with
    | ok i => exact absurd hw (not_reservedWord_of_decodeCmd_ok hd)
    | error e => rw [decodeCmd_error hd]

end Sys2Proof

namespace Sys2Proof.Machine

/-- Settles O3: the reserved words are those no row of the decoder takes, and a request with one is answered by the
rejection of its word. -/
theorem reservedWordsAreIllegal : Obligations.ReservedWordsAreIllegal := by
  intro w
  simp only [← cmdOp_toNat, ← cmdSel_toNat, ← cmdA_toNat, ← cmdB_toNat, ← cmdRsv_toNat]
  refine ⟨fun hw => ?_, decodeCmd_ok_of_not_reservedWord⟩
  have hd := decodeCmd_error_iff.mpr hw
  exact ⟨hd, fun args => perform_of_decodeCmd_error (req := { cmd := w, args := args }) hd⟩

theorem assembleRaster_of_le {n1 n2 : Nat} (h1 : n1 ≤ 255) (h2 : n2 ≤ 255) (bs : List Byte) :
    assembleRaster n1 n2 bs =
      some { cmd := cmdWord 0x3 0 (BitVec.ofNat 8 n1) (BitVec.ofNat 8 n2), args := bs } :=
  if_pos ⟨h1, h2⟩

theorem assembleRaster_eq_none {n1 n2 : Nat} (h : 255 < n1 ∨ 255 < n2) (bs : List Byte) :
    assembleRaster n1 n2 bs = none :=
  if_neg fun ⟨h1, h2⟩ => h.elim (Nat.not_lt.mpr h1) (Nat.not_lt.mpr h2)

/-- Settles O59: COMPRESS without T is COMPRESS 3, and RASTERC is RASTER with the list's length as n1, which RASTER
takes up to 255. -/
theorem pseudoInstructionsExpand : Obligations.PseudoInstructionsExpand := by
  intro bs
  refine ⟨rfl, fun hle => ⟨rfl, _, assembleRaster_of_le hle (Nat.zero_le _) bs⟩, fun hlt => ?_⟩
  exact assembleRaster_eq_none (.inl hlt) bs

end Sys2Proof.Machine
end

section
/-! PROOFS. The run-count codec (40_runcount_codec.md): NORMALIZE's word as a number (30_encoding.md R60), its result as
eight bytes that read back (00_scope.md R11), and the laws of run counts (R102). -/

namespace Sys2Proof

/-- A command word as a number: each field at its place (R60). -/
theorem cmdWord_toNat (op sel : BitVec 4) (a b : Byte) :
    (cmdWord op sel a b).toNat = op.toNat + 2 ^ 4 * sel.toNat + 2 ^ 8 * a.toNat + 2 ^ 16 * b.toNat := by
  have hop := cmdOp_toNat (cmdWord op sel a b)
  have hsel := cmdSel_toNat (cmdWord op sel a b)
  have ha := cmdA_toNat (cmdWord op sel a b)
  have hb := cmdB_toNat (cmdWord op sel a b)
  have hrsv := cmdRsv_toNat (cmdWord op sel a b)
  simp only [cmdOp_cmdWord, cmdSel_cmdWord, cmdA_cmdWord, cmdB_cmdWord, cmdRsv_cmdWord, BitVec.ofNat_eq_ofNat,
    BitVec.toNat_zero] at hop hsel ha hb hrsv
  omega

/-- The number of a command word, read as a word again. -/
theorem ofNat_cmdWord {op sel : BitVec 4} {a b : Byte} {v : Nat}
    (h : op.toNat + 2 ^ 4 * sel.toNat + 2 ^ 8 * a.toNat + 2 ^ 16 * b.toNat = v) :
    BitVec.ofNat 32 v = cmdWord op sel a b := by
  rw [← h, ← cmdWord_toNat, BitVec.ofNat_toNat, BitVec.setWidth_eq]

end Sys2Proof

namespace Sys2Proof.Machine

/-- NORMALIZE's word is `0x0000nn00` (R62, R64). -/
theorem decodeCmd_normalizeWord (n : Byte) : decodeCmd (BitVec.ofNat 32 (n.toNat * 2 ^ 8)) = .ok (.normalize n) := by
  have hw : BitVec.ofNat 32 (n.toNat * 2 ^ 8) = cmdWord 0x0 0 n 0 := ofNat_cmdWord (by simp [Nat.mul_comm])
  rw [hw, decodeCmd_cmdWord]
  exact if_pos ⟨rfl, rfl, rfl⟩

/-- Index 0 is the most significant byte (R11). -/
theorem beValue_cons (b : Byte) (bs : List Byte) : beValue (b :: bs) = b.toNat * 256 ^ bs.length + beValue bs := by
  simpa [beValue] using beValue_foldl b.toNat bs

/-- The `k` bytes of a number hold its `k` low base-256 digits. -/
theorem beValue_bytesBE (k v : Nat) : beValue (bytesBE k v) = v % 256 ^ k := by
  induction k with
  | zero => simp [bytesBE, Nat.mod_one]
  | succ k ih =>
    calc beValue (bytesBE (k + 1) v) = v / 256 ^ k % 256 * 256 ^ k + v % 256 ^ k := by
          rw [bytesBE, beValue_cons, bytesBE_length, ih, BitVec.toNat_ofNat]
      _ = v % 256 ^ k + 256 ^ k * (v / 256 ^ k % 256) := by ring
      _ = v % 256 ^ (k + 1) := by rw [Nat.pow_succ, Nat.mod_mul (a := 256 ^ k)]

theorem beValue_bytesBE_of_lt {k v : Nat} (h : v < 256 ^ k) : beValue (bytesBE k v) = v :=
  (beValue_bytesBE k v).trans (Nat.mod_eq_of_lt h)

/-- For the bit counts R101 admits, the result of R100 fits the 8 bytes it is written in. -/
theorem normalizeInt_lt_eight_bytes (value : Int) {n : Nat} (hn : n ≤ 64) : normalizeInt value n < 256 ^ 8 :=
  calc normalizeInt value n < 2 ^ n := normalize_lt value n
    _ ≤ 2 ^ 64 := Nat.pow_le_pow_right (by decide) hn
    _ = 256 ^ 8 := by norm_num

/-- NORMALIZE of a held request answers with its operation's response (R101). -/
theorem exec_normalize_of_busy {s : State} {req : Request} (hp : s.phase = .busy req) (n : Byte) :
    exec (.normalize n) s = .next (respond (normalizeOp n req.args) s) :=
  answer_of_busy (normalizeOp n) hp

/-- Settles O8, by the three outcomes of R101's checks. -/
theorem normalizeResponds : Obligations.NormalizeResponds := by
  intro s req n hp
  rw [exec_normalize_of_busy hp]
  refine ⟨decodeCmd_normalizeWord n, fun hn => ?badOperand, fun hn hl => ?argLength, fun hn hl => ?ok⟩
  case badOperand => rw [normalizeOp_badOperand hn, byteInfo]
  case argLength => rw [normalizeOp_argLength hn hl, lengthInfo]
  case ok =>
    refine ⟨_, by rw [normalizeOp_ok hn hl], bytesBE_length 8 _, ?_⟩
    rw [beValue_bytesBE_of_lt (normalizeInt_lt_eight_bytes _ hn), normalize_cast]

/-- Settles O10, from the congruence of R100: a negated count moves up by one period of 256, and a count below 256 is its
own remainder. -/
theorem runCountLaws : Obligations.RunCountLaws := by
  refine ⟨fun count hpos hle => ?negated, fun count hlt => ?nonneg⟩
  case negated =>
    have h := normalize_cast (-(count : Int)) 8
    omega
  case nonneg =>
    have h := normalize_cast (count : Int) 8
    omega

end Sys2Proof.Machine
end

section
/-! PROOFS. The compressor's first pass (41_compressor.md R111): the runs of a line. -/

namespace Sys2Proof.Machine

/-- The bytes a sequence of runs stands for. -/
def bytesOfRuns (rs : List Run) : List Byte := rs.flatMap fun r => List.replicate r.length r.value

@[simp] theorem bytesOfRuns_nil : bytesOfRuns [] = [] := rfl

@[simp] theorem bytesOfRuns_cons (r : Run) (rs : List Run) :
    bytesOfRuns (r :: rs) = List.replicate r.length r.value ++ bytesOfRuns rs := rfl

theorem bytesOfRuns_length (rs : List Run) : (bytesOfRuns rs).length = (rs.map Run.length).sum := by
  simp [bytesOfRuns, List.length_flatMap]

/-- Adjacent runs differ in value: no run can be made longer (R111). -/
def adjacentDiffer (rs : List Run) : Prop := rs.IsChain fun r r' => r.value ≠ r'.value

theorem bytesOfRuns_consRun (b : Byte) (rs : List Run) : bytesOfRuns (consRun b rs) = b :: bytesOfRuns rs := by
  obtain ⟨r, rest, rfl, rfl, heq⟩ | ⟨-, heq⟩ := consRun_cases b rs
  · simp [heq, List.replicate_succ]
  · simp [heq]

theorem consRun_length_pos (b : Byte) {rs : List Run} (h : ∀ r ∈ rs, 1 ≤ r.length) :
    ∀ r ∈ consRun b rs, 1 ≤ r.length := by
  obtain ⟨r, rest, rfl, -, heq⟩ | ⟨-, heq⟩ := consRun_cases b rs
  · rw [heq, List.forall_mem_cons]
    exact ⟨Nat.le_add_left 1 _, (List.forall_mem_cons.mp h).2⟩
  · rw [heq, List.forall_mem_cons]
    exact ⟨Nat.le_refl 1, h⟩

/-- A lengthened first run keeps its value, and a new one is begun only before another value. -/
theorem consRun_adjacentDiffer (b : Byte) {rs : List Run} (h : adjacentDiffer rs) : adjacentDiffer (consRun b rs) := by
  obtain ⟨r, rest, rfl, rfl, heq⟩ | ⟨hne, heq⟩ := consRun_cases b rs
  · rw [heq]
    exact List.isChain_cons.mpr (List.isChain_cons.mp h)
  · rw [heq]
    refine List.isChain_cons.mpr ⟨fun r hr => ?_, h⟩
    obtain ⟨rest, rfl⟩ := List.head?_eq_some_iff.mp hr
    exact (hne r rest rfl).symm

theorem bytesOfRuns_runs (scanline : List Byte) : bytesOfRuns (runs scanline) = scanline := by
  induction scanline with
  | nil => rfl
  | cons b bs ih => rw [runs_cons, bytesOfRuns_consRun, ih]

theorem runs_length_pos (scanline : List Byte) : ∀ r ∈ runs scanline, 1 ≤ r.length := by
  induction scanline with
  | nil => simp
  | cons b bs ih => exact consRun_length_pos b ih

theorem runs_adjacentDiffer (scanline : List Byte) : adjacentDiffer (runs scanline) := by
  induction scanline with
  | nil => exact List.isChain_nil
  | cons b bs ih => exact consRun_adjacentDiffer b ih

/-- Settles O13: each property holds of no runs and is kept by a byte added in front. -/
theorem runsAreMaximal : Obligations.RunsAreMaximal := by
  intro scanline
  refine ⟨runs_length_pos scanline, fun before r r' after heq => ?differ, ?sum, bytesOfRuns_runs scanline⟩
  case differ => exact List.isChain_iff_forall_rel_of_append_cons_cons.mp (runs_adjacentDiffer scanline) heq
  case sum => rw [← bytesOfRuns_length, bytesOfRuns_runs]

end Sys2Proof.Machine
end

section
/-! PROOFS. The two splits of the compressor's second pass: of a repeat run (41_compressor.md R115) and of a literal
accumulation (R116). -/

namespace Sys2Proof.Machine

/-- A run of full pieces only. -/
theorem repChunks_of_mod_eq_zero {k : Nat} (hk : 128 < k) (hr : k % 128 = 0) (v : Byte) (t : Nat) :
    repChunks v k t = List.replicate (k / 128) (.rep v 128) :=
  (if_neg (Nat.not_le.mpr hk)).trans (if_pos hr)

/-- A remainder that meets the threshold is a piece of its own. -/
theorem repChunks_of_le_mod {k t : Nat} (hk : 128 < k) (hr : k % 128 ≠ 0) (ht : t ≤ k % 128) (v : Byte) :
    repChunks v k t = List.replicate (k / 128) (.rep v 128) ++ [.rep v (k % 128)] :=
  (if_neg (Nat.not_le.mpr hk)).trans ((if_neg hr).trans (if_pos ht))

/-- A remainder below the threshold borrows from the last full piece. -/
theorem repChunks_of_mod_lt {k t : Nat} (hk : 128 < k) (hr : k % 128 ≠ 0) (ht : k % 128 < t) (v : Byte) :
    repChunks v k t = List.replicate (k / 128 - 1) (.rep v 128) ++ [.rep v (128 - (t - k % 128)), .rep v t] :=
  (if_neg (Nat.not_le.mpr hk)).trans ((if_neg hr).trans (if_neg (Nat.not_le.mpr ht)))

/-- What the pieces of a split run share in all four cases of R115: their value, their sum and the range of their counts. -/
theorem repChunks_counts (v : Byte) {k t : Nat} (ht : t ≤ 64) (htk : t ≤ k) (hk : 1 ≤ k) :
    ∃ counts : List Nat, repChunks v k t = counts.map (Segment.rep v) ∧ counts.sum = k ∧
      ∀ c ∈ counts, max t 1 ≤ c ∧ c ≤ 128 := by
  rcases Nat.lt_or_ge 128 k with hlt | hle
  · by_cases hr : k % 128 = 0
    · refine ⟨List.replicate (k / 128) 128, by rw [repChunks_of_mod_eq_zero hlt hr, List.map_replicate], ?_, ?_⟩
      · simp; omega
      · simp; omega
    · rcases Nat.lt_or_ge (k % 128) t with hb | hm
      · refine ⟨List.replicate (k / 128 - 1) 128 ++ [128 - (t - k % 128), t],
          by rw [repChunks_of_mod_lt hlt hr hb, List.map_append, List.map_replicate]; rfl, ?_, ?_⟩
        · simp; omega
        · simp [or_imp, forall_and]; omega
      · refine ⟨List.replicate (k / 128) 128 ++ [k % 128],
          by rw [repChunks_of_le_mod hlt hr hm, List.map_append, List.map_replicate]; rfl, ?_, ?_⟩
        · simp; omega
        · simp [or_imp, forall_and]; omega
  · exact ⟨[k], repChunks_of_le hle, List.sum_singleton, by simp; omega⟩

/-- Settles O17, from an equation for each of the four cases. -/
theorem repeatSplitBoundedAndExact : Obligations.RepeatSplitBoundedAndExact := by
  intro v k t ht htk hk
  exact ⟨repChunks_of_le, fun hlt hr => repChunks_of_mod_eq_zero hlt hr v t,
    fun hlt hr hm => repChunks_of_le_mod hlt hr hm v, fun hlt hr hb => repChunks_of_mod_lt hlt hr hb v,
    repChunks_counts v ht htk hk⟩

/-- A round of the literal split takes a full piece off the front, and the last round keeps what is left. -/
theorem litChunks_split (acc : List Byte) (h : acc ≠ []) :
    ∃ (full : List (List Byte)) (last : List Byte), litChunks acc = full.map Segment.lit ++ [.lit last] ∧
      full.flatten ++ last = acc ∧ (∀ bs ∈ full, bs.length = 128) ∧ 1 ≤ last.length ∧ last.length ≤ 128 := by
  rw [litChunks_eq]
  split
  · next hlt =>
    have hdrop : acc.drop litMax ≠ [] := by simpa using hlt
    obtain ⟨full, last, heq, hflat, hfull, hlast⟩ := litChunks_split (acc.drop litMax) hdrop
    refine ⟨acc.take litMax :: full, last, by rw [heq]; rfl, ?_, ?_, hlast⟩
    · rw [List.flatten_cons, List.append_assoc, hflat, List.take_append_drop]
    · exact List.forall_mem_cons.mpr ⟨List.length_take_of_le (Nat.le_of_lt hlt), hfull⟩
  · next hle =>
    exact ⟨[], acc, rfl, rfl, by simp, List.length_pos_iff.mpr h, Nat.not_lt.mp hle⟩
termination_by acc.length
decreasing_by rw [List.length_drop]; exact Nat.sub_lt (List.length_pos_iff.mpr h) (by decide)

/-- Settles O18, by the rounds of the loop of R116. -/
theorem literalSplitExact : Obligations.LiteralSplitExact :=
  litChunks_split

/-- A flush gives LiteralRuns within R112's bounds that hold the accumulator's bytes in order, none for an empty one. -/
theorem flushLiterals_split (acc : List Byte) :
    ∃ lits : List (List Byte), flushLiterals acc = lits.map Segment.lit ∧ lits.flatten = acc ∧
      ∀ bs ∈ lits, 1 ≤ bs.length ∧ bs.length ≤ 128 := by
  by_cases h : acc = []
  · exact ⟨[], by simp [h], by simp [h], by simp⟩
  · obtain ⟨full, last, heq, hflat, hfull, hlast⟩ := litChunks_split acc h
    refine ⟨full ++ [last], by simp [flushLiterals_of_ne h, heq], by simp [hflat], fun bs hbs => ?_⟩
    rcases List.mem_append.mp hbs with hmem | hmem
    · simp [hfull bs hmem]
    · rwa [List.mem_singleton.mp hmem]

end Sys2Proof.Machine
end

section
/-! PROOFS. The compressor's second pass: its walk over the runs (41_compressor.md R113, R114), and the bounds and the
bytes of the segments it makes (R112). -/

namespace Sys2Proof.Machine

theorem segmentFrom_nil (t : Nat) (acc : List Byte) : segmentFrom t acc [] = flushLiterals acc := rfl

/-- A run that meets the threshold flushes the accumulator and is split (R113). -/
theorem segmentFrom_cons_of_le {t : Nat} {r : Run} (h : t ≤ r.length) (acc : List Byte) (rs : List Run) :
    segmentFrom t acc (r :: rs) = flushLiterals acc ++ repChunks r.value r.length t ++ segmentRuns rs t :=
  if_pos h

/-- A shorter run joins the accumulator (R113). -/
theorem segmentFrom_cons_of_lt {t : Nat} {r : Run} (h : r.length < t) (acc : List Byte) (rs : List Run) :
    segmentFrom t acc (r :: rs) = segmentFrom t (acc ++ List.replicate r.length r.value) rs :=
  if_neg (Nat.not_le.mpr h)

/-- A run that meets the threshold parts the walk: the accumulator is empty again behind it. -/
theorem segmentFrom_append_cons {t : Nat} {r : Run} (h : t ≤ r.length) (acc : List Byte) (before after : List Run) :
    segmentFrom t acc (before ++ r :: after) =
      segmentFrom t acc before ++ repChunks r.value r.length t ++ segmentRuns after t := by
  induction before generalizing acc with
  | nil => exact segmentFrom_cons_of_le h acc after
  | cons x before ih =>
    rcases Nat.lt_or_ge x.length t with hx | hx
    · rw [List.cons_append, segmentFrom_cons_of_lt hx, segmentFrom_cons_of_lt hx, ih]
    · rw [List.cons_append, segmentFrom_cons_of_le hx, segmentFrom_cons_of_le hx, segmentRuns, ih]
      simp only [segmentRuns, List.append_assoc]

/-- Runs all shorter than the threshold reach the end of the walk in one accumulation. -/
theorem segmentFrom_of_forall_lt {t : Nat} {rs : List Run} (h : ∀ r ∈ rs, r.length < t) (acc : List Byte) :
    segmentFrom t acc rs = flushLiterals (acc ++ bytesOfRuns rs) := by
  induction rs generalizing acc with
  | nil => simp [segmentFrom_nil]
  | cons r rs ih =>
    obtain ⟨hr, hrs⟩ := List.forall_mem_cons.mp h
    rw [segmentFrom_cons_of_lt hr, ih hrs, bytesOfRuns_cons, List.append_assoc]

theorem bytesOfRuns_ne_nil {rs : List Run} (hpos : ∀ r ∈ rs, 1 ≤ r.length) (hne : rs ≠ []) : bytesOfRuns rs ≠ [] := by
  obtain ⟨r, rest, rfl⟩ := List.exists_cons_of_ne_nil hne
  have hr : r.length ≠ 0 := Nat.one_le_iff_ne_zero.mp (hpos r List.mem_cons_self)
  simp [hr]

/-- Settles O15: a run that meets the threshold parts the walk, and without one the walk is a single accumulation. -/
theorem segmentationWalk : Obligations.SegmentationWalk := by
  refine ⟨fun before after r t h => segmentFrom_append_cons h [] before after, fun rs t h => ?_⟩
  refine ⟨fun hnil => by rw [hnil]; rfl, fun hne => ?_⟩
  have hbytes : bytesOfRuns rs ≠ [] := bytesOfRuns_ne_nil (fun r hr => (h r hr).1) hne
  calc segmentRuns rs t = flushLiterals (bytesOfRuns rs) := segmentFrom_of_forall_lt (fun r hr => (h r hr).2) []
    _ = litChunks (bytesOfRuns rs) := flushLiterals_of_ne hbytes

theorem flushLiterals_bounded (t : Nat) (acc : List Byte) : ∀ seg ∈ flushLiterals acc, segmentBounded t seg := by
  obtain ⟨lits, heq, -, hlen⟩ := flushLiterals_split acc
  rw [heq, List.forall_mem_map]
  exact hlen

/-- Every segment of the walk is a piece of a split run or of a flushed accumulation, so it is bounded (R112). -/
theorem segmentFrom_bounded {t : Nat} (ht : t ≤ 64) {rs : List Run} (hpos : ∀ r ∈ rs, 1 ≤ r.length) (acc : List Byte) :
    ∀ seg ∈ segmentFrom t acc rs, segmentBounded t seg := by
  induction rs generalizing acc with
  | nil => exact flushLiterals_bounded t acc
  | cons r rs ih =>
    obtain ⟨hr, hrs⟩ := List.forall_mem_cons.mp hpos
    rcases Nat.lt_or_ge r.length t with hlt | hge
    · rw [segmentFrom_cons_of_lt hlt]
      exact ih hrs _
    · obtain ⟨counts, heq, -, hcount⟩ := repChunks_counts r.value ht hge hr
      rw [segmentFrom_cons_of_le hge, heq, List.forall_mem_append, List.forall_mem_append, List.forall_mem_map]
      exact ⟨⟨flushLiterals_bounded t acc, hcount⟩, ih hrs []⟩

theorem segmentRuns_bounded {t : Nat} (ht : t ≤ 64) (scanline : List Byte) :
    ∀ seg ∈ segmentRuns (runs scanline) t, segmentBounded t seg :=
  segmentFrom_bounded ht (runs_length_pos scanline) []

theorem expand_map_lit (lits : List (List Byte)) : expand (lits.map Segment.lit) = lits.flatten := by
  induction lits with
  | nil => rfl
  | cons bs lits ih => rw [List.map_cons, expand_cons, ih]; rfl

theorem expand_map_rep (v : Byte) (counts : List Nat) :
    expand (counts.map (Segment.rep v)) = List.replicate counts.sum v := by
  induction counts with
  | nil => rfl
  | cons c counts ih =>
    rw [List.map_cons, expand_cons, ih, List.sum_cons, List.replicate_add]
    rfl

@[simp] theorem expand_flushLiterals (acc : List Byte) : expand (flushLiterals acc) = acc := by
  obtain ⟨lits, heq, hflat, -⟩ := flushLiterals_split acc
  rw [heq, expand_map_lit, hflat]

theorem expand_repChunks (v : Byte) {k t : Nat} (ht : t ≤ 64) (htk : t ≤ k) (hk : 1 ≤ k) :
    expand (repChunks v k t) = List.replicate k v := by
  obtain ⟨counts, heq, hsum, -⟩ := repChunks_counts v ht htk hk
  rw [heq, expand_map_rep, hsum]

/-- The walk neither loses, adds nor moves a byte: the segments hold the accumulator and then the runs. -/
theorem expand_segmentFrom {t : Nat} (ht : t ≤ 64) {rs : List Run} (hpos : ∀ r ∈ rs, 1 ≤ r.length) (acc : List Byte) :
    expand (segmentFrom t acc rs) = acc ++ bytesOfRuns rs := by
  induction rs generalizing acc with
  | nil => simp [segmentFrom_nil]
  | cons r rs ih =>
    obtain ⟨hr, hrs⟩ := List.forall_mem_cons.mp hpos
    rcases Nat.lt_or_ge r.length t with hlt | hge
    · rw [segmentFrom_cons_of_lt hlt, ih hrs, bytesOfRuns_cons, List.append_assoc]
    · rw [segmentFrom_cons_of_le hge, segmentRuns]
      simp [expand_append, expand_repChunks r.value ht hge hr, ih hrs]

theorem expand_segmentRuns {t : Nat} (ht : t ≤ 64) {rs : List Run} (hpos : ∀ r ∈ rs, 1 ≤ r.length) :
    expand (segmentRuns rs t) = bytesOfRuns rs :=
  expand_segmentFrom ht hpos []

/-- Settles O14, by the bounds and the bytes of the two splits, carried along the walk. -/
theorem segmentsBoundedAndExact : Obligations.SegmentsBoundedAndExact := by
  intro scanline t ht
  refine ⟨fun v c hmem => segmentRuns_bounded ht scanline _ hmem, fun bs hmem => segmentRuns_bounded ht scanline _ hmem, ?_⟩
  rw [expand_segmentRuns ht (runs_length_pos scanline), bytesOfRuns_runs]

/-- What is in the accumulator comes out first, in LiteralRuns, with the bytes of the short runs that follow it. -/
theorem segmentFrom_starts_with_acc (t : Nat) (acc : List Byte) (rs : List Run) :
    ∃ (lits : List (List Byte)) (q : List Segment) (post : List Byte),
      segmentFrom t acc rs = lits.map Segment.lit ++ q ∧ lits.flatten = acc ++ post := by
  induction rs generalizing acc with
  | nil =>
    obtain ⟨lits, heq, hflat, -⟩ := flushLiterals_split acc
    exact ⟨lits, [], [], by simp [segmentFrom_nil, heq], by simp [hflat]⟩
  | cons r rs ih =>
    rcases Nat.lt_or_ge r.length t with hlt | hge
    · obtain ⟨lits, q, post, heq, hflat⟩ := ih (acc ++ List.replicate r.length r.value)
      exact ⟨lits, q, _, by rw [segmentFrom_cons_of_lt hlt, heq], by rw [hflat, List.append_assoc]⟩
    · obtain ⟨lits, heq, hflat, -⟩ := flushLiterals_split acc
      exact ⟨lits, _, [], by rw [segmentFrom_cons_of_le hge, heq, List.append_assoc], by simp [hflat]⟩

/-- A run below the threshold lies whole in one accumulation. The segments `p` end at the last run before it that meets the
threshold, and `pre` holds the accumulated bytes between the two. -/
theorem segmentFrom_short_run {t : Nat} (ht : t ≤ 64) {r : Run} (h : r.length < t) (after : List Run) {before : List Run}
    (hpos : ∀ x ∈ before, 1 ≤ x.length) (acc : List Byte) :
    ∃ (p : List Segment) (lits : List (List Byte)) (q : List Segment) (pre post : List Byte),
      segmentFrom t acc (before ++ r :: after) = p ++ lits.map Segment.lit ++ q ∧
      lits.flatten = pre ++ List.replicate r.length r.value ++ post ∧
      expand p ++ pre = acc ++ bytesOfRuns before := by
  induction before generalizing acc with
  | nil =>
    obtain ⟨lits, q, post, heq, hflat⟩ := segmentFrom_starts_with_acc t (acc ++ List.replicate r.length r.value) after
    exact ⟨[], lits, q, acc, post, (segmentFrom_cons_of_lt h acc after).trans heq, hflat, by simp⟩
  | cons x before ih =>
    obtain ⟨hx, hbefore⟩ := List.forall_mem_cons.mp hpos
    rcases Nat.lt_or_ge x.length t with hlt | hge
    · obtain ⟨p, lits, q, pre, post, heq, hflat, hplace⟩ := ih hbefore (acc ++ List.replicate x.length x.value)
      exact ⟨p, lits, q, pre, post, by rw [List.cons_append, segmentFrom_cons_of_lt hlt, heq], hflat,
        by rw [hplace, bytesOfRuns_cons, List.append_assoc]⟩
    · obtain ⟨p, lits, q, pre, post, heq, hflat, hplace⟩ := ih hbefore []
      refine ⟨flushLiterals acc ++ repChunks x.value x.length t ++ p, lits, q, pre, post, ?_, hflat, ?_⟩
      · rw [List.cons_append, segmentFrom_cons_of_le hge, segmentRuns, heq]
        simp only [List.append_assoc]
      · simp [expand_append, expand_repChunks x.value ht hge hx, hplace]

/-- Settles O16: a run that meets the threshold parts the walk, and a shorter one goes through the accumulator. -/
theorem thresholdDecidesWholeRun : Obligations.ThresholdDecidesWholeRun := by
  intro scanline t before after r ht heq
  have hpos : ∀ x ∈ before, 1 ≤ x.length := fun x hx =>
    runs_length_pos scanline x (heq ▸ List.mem_append_left _ hx)
  rw [heq]
  refine ⟨fun hge => ?_, fun hlt => segmentFrom_short_run ht hlt after hpos []⟩
  exact ⟨segmentRuns before t, segmentRuns after t, segmentFrom_append_cons hge [] before after,
    expand_segmentRuns ht hpos⟩

end Sys2Proof.Machine
end

section
/-! PROOFS. The compressor's third pass (41_compressor.md R118), and COMPRESS as an operation (R110). -/

namespace Sys2Proof.Machine

/-- Settles O20, by R118's case for each kind of segment; that a repeat's header is `256 - count` is R102's law of negated
counts. -/
theorem serializedBytes : Obligations.SerializedBytes := by
  refine ⟨serialize_nil, fun v c segs hpos hle => ?rep, fun bs segs hpos hle => ?lit⟩
  case rep => exact ⟨runCountLaws.1 c hpos hle, serialize_cons (.rep v c) segs⟩
  case lit => exact serialize_cons (.lit bs) segs

/-- COMPRESS's word is `0x0000TT01` (R62, R64). -/
theorem decodeCmd_compressWord (t : Byte) : decodeCmd (BitVec.ofNat 32 (t.toNat * 2 ^ 8 + 1)) = .ok (.compress t) := by
  have hw : BitVec.ofNat 32 (t.toNat * 2 ^ 8 + 1) = cmdWord 0x1 0 t 0 := ofNat_cmdWord (by simp; omega)
  rw [hw, decodeCmd_eq_ok_iff]
  exact ⟨cmdRsv_cmdWord 0x1 0 t 0, .inr (.inl (by simp))⟩

/-- COMPRESS of a held request answers with its operation's response (R110). -/
theorem exec_compress_of_busy {s : State} {req : Request} (hp : s.phase = .busy req) (t : Byte) :
    exec (.compress t) s = .next (respond (compressOp t req.args) s) :=
  answer_of_busy (compressOp t) hp

/-- None of the three outcomes of R110's checks has this code (R184). -/
theorem compressOp_code_ne_segmentOverflow (t : Byte) (args : List Byte) :
    (compressOp t args).code ≠ .segmentOverflowError := by
  rcases Nat.lt_or_ge 64 t.toNat with ht | ht
  · simp [compressOp_badOperand ht, errorResponse]
  · rcases Nat.lt_or_ge Config.wMax args.length with hl | hl
    · simp [compressOp_argLength ht hl, errorResponse]
    · simp [compressOp_ok ht hl, okResponse]

/-- Settles O12, by the three outcomes of R110's checks. -/
theorem compressResponds : Obligations.CompressResponds := by
  intro s req t hp
  rw [exec_compress_of_busy hp]
  refine ⟨decodeCmd_compressWord t, fun ht => ?badOperand, fun ht hl => ?argLength, fun ht hl => ?ok,
    fun u r hu hr => ?overflow⟩
  case badOperand => rw [compressOp_badOperand ht, byteInfo]
  case argLength => rw [compressOp_argLength ht hl, lengthInfo]
  case ok => rw [compressOp_ok ht hl, compress]
  case overflow =>
    cases hu
    obtain rfl : compressOp t req.args = r := by simpa using hr
    exact compressOp_code_ne_segmentOverflow t req.args

end Sys2Proof.Machine
end

section
/-! PROOFS. The command framer (42_command_framer.md): the seven control sequences (R140, R141) and the raster frame
envelope (R149). -/

namespace Sys2Proof

/-- The word of a control sequence: OP = 2 and its selector, everything else 0 (R63, R64). -/
def ctrlWord (c : CtrlName) : CmdWord := cmdWord 0x2 (selectorOfCtrl c) 0 0

theorem decodeCmd_ctrlWord (c : CtrlName) : decodeCmd (ctrlWord c) = .ok (instrOfCtrl c) := by
  simpa [ctrlWord, decodeCmd_cmdWord] using decodeCtrl_cmdWord c

/-- RASTER_FRAME's word is `0x00bbaa03`: n1 in A and n2 in B (R60, R149). -/
theorem decodeCmd_rasterFrameWord (n1 n2 : Byte) :
    decodeCmd (BitVec.ofNat 32 (n2.toNat * 2 ^ 16 + n1.toNat * 2 ^ 8 + 3)) = .ok (.rasterFrame n1 n2) := by
  have hw : BitVec.ofNat 32 (n2.toNat * 2 ^ 16 + n1.toNat * 2 ^ 8 + 3) = cmdWord 0x3 0 n1 n2 :=
    ofNat_cmdWord (by simp; omega)
  rw [hw, decodeCmd_cmdWord]
  simp

end Sys2Proof

namespace Sys2Proof.Machine

/-- A CTRL instruction with a request held answers by the common rule of the seven selectors (R141). -/
theorem exec_ctrl_of_busy {s : State} {req : Request} (hp : s.phase = .busy req) (c : CtrlName) :
    exec (instrOfCtrl c) s = .next (respond (ctrlOp c req.args) s) := by
  rw [exec_eq_answer (isHeader_of_decodeCmd (decodeCmd_ctrlWord c)) hp, operationResponse_instrOfCtrl]

/-- A control sequence's row in the tables of R63 and R140: its instruction, its word and its bytes. -/
def ctrlRow (c : CtrlName) : Instr × CmdWord × List Byte := (instrOfCtrl c, ctrlWord c, ctrlSequence c)

/-- Settles O27: the seven rows written out are those of the seven names, and each name's row is by the common rule
of R141. -/
theorem controlSequencesReturned : Obligations.ControlSequencesReturned := by
  intro p hp
  have hrow : p ∈ [CtrlName.getStatus, .initialization, .rasterMode, .expandedMode, .compressionMode, .clearBuffer,
    .pageFeed].map ctrlRow := hp
  obtain ⟨c, -, rfl⟩ := List.mem_map.mp hrow
  refine ⟨decodeCmd_ctrlWord c, fun s req hbusy => ⟨fun hnil => ?noArgs, fun hne => ?someArgs⟩⟩
  case noArgs => rw [ctrlRow, exec_ctrl_of_busy hbusy, hnil, ctrlOp_ok, okResponse]
  case someArgs =>
    have hlen : req.args.length ≠ 0 := mt List.length_eq_zero_iff.mp hne
    rw [ctrlRow, exec_ctrl_of_busy hbusy, ctrlOp_argLength c hlen, lengthInfo]

/-- RASTER_FRAME of a held request frames its ARGS, whatever they are (R149). -/
theorem exec_rasterFrame_of_busy {s : State} {req : Request} (hp : s.phase = .busy req) (n1 n2 : Byte) :
    exec (.rasterFrame n1 n2) s = .next (respond (okResponse (0x47 :: n1 :: n2 :: req.args)) s) :=
  answer_of_busy (rasterFrameOp n1 n2) hp

/-- Settles O28: the response's bytes are the three of the header and then the payload. -/
theorem rasterFrameShape : Obligations.RasterFrameShape := by
  intro s req n1 n2 hp
  refine ⟨decodeCmd_rasterFrameWord n1 n2, 0x47 :: n1 :: n2 :: req.args, exec_rasterFrame_of_busy hp n1 n2, ?length,
    rfl, rfl, rfl, rfl⟩
  case length => simp only [List.length_cons]; omega

end Sys2Proof.Machine
end

section
/-! PROOFS. The status frame decoder (43_status_decoder.md): the frame's fields and its signed last one (R160, R163), the
classification of Status_Kind (R161, R164), and the response to a frame (R162, R165). -/

namespace Sys2Proof.Machine

/-- A byte sequence's value needs no more base-256 digits than it has bytes (R11). -/
theorem beValue_lt (bs : List Byte) : beValue bs < 256 ^ bs.length := by
  induction bs with
  | nil => simp
  | cons b bs ih =>
    calc beValue (b :: bs) = b.toNat * 256 ^ bs.length + beValue bs := beValue_cons b bs
      _ < b.toNat * 256 ^ bs.length + 256 ^ bs.length := Nat.add_lt_add_left ih _
      _ = (b.toNat + 1) * 256 ^ bs.length := (Nat.succ_mul _ _).symm
      _ ≤ 256 * 256 ^ bs.length := Nat.mul_le_mul_right _ b.isLt
      _ = 256 ^ (b :: bs).length := (Nat.pow_succ' ..).symm

/-- At most eight bytes hold a 64-bit pattern. -/
theorem beValue_lt_two_pow_64 {bs : List Byte} (h : bs.length ≤ 8) : beValue bs < 2 ^ 64 :=
  calc beValue bs < 256 ^ bs.length := beValue_lt bs
    _ ≤ 256 ^ 8 := Nat.pow_le_pow_right (by decide) h
    _ = 2 ^ 64 := by norm_num

/-- A signed reading of a 64-bit pattern is a signed 64-bit integer (R11). -/
theorem sext64_bounds {v : Nat} (h : v < 2 ^ 64) : -2 ^ 63 ≤ sext64 v ∧ sext64 v ≤ 2 ^ 63 - 1 := by
  unfold sext64
  split <;> omega

theorem signedBE_bounds {bs : List Byte} (h : bs.length ≤ 8) : -2 ^ 63 ≤ signedBE bs ∧ signedBE bs ≤ 2 ^ 63 - 1 :=
  sext64_bounds (beValue_lt_two_pow_64 h)

/-- The signed reading of eight bytes is congruent to their unsigned one, which is its own remainder. -/
theorem signedBE_emod {bs : List Byte} (h : bs.length ≤ 8) : signedBE bs % 2 ^ 64 = (beValue bs : Int) := by
  have hlt := beValue_lt_two_pow_64 h
  rw [signedBE, sext64_emod]
  omega

theorem frameByte_of_lt {bs : List Byte} {i : Nat} (h : i < bs.length) : frameByte bs i = bs[i] :=
  List.getD_eq_getElem bs 0 h

/-- The frame's bytes, index by index, are its front part. -/
theorem map_frameByte_range {bs : List Byte} {n : Nat} (h : n ≤ bs.length) :
    (List.range n).map (frameByte bs) = bs.take n := by
  refine List.ext_getElem (by simpa using h) fun i hi _ => ?_
  have hin : i < n := by simpa using hi
  rw [List.getElem_map, List.getElem_range, List.getElem_take, frameByte_of_lt (hin.trans_le h)]

/-- The last field of a whole frame is all that stands behind the 24 bytes (R160, R163). -/
theorem decodeFrame_expansion {bs : List Byte} (h : bs.length = 32) :
    (decodeFrame bs).expansion = signedBE (bs.drop 24) := by
  have hdrop : (bs.drop 24).take 8 = bs.drop 24 := List.take_of_length_le (by simp [h])
  rw [decodeFrame, hdrop]

/-- The record of any frame is well formed (R161, R163). -/
theorem decodeFrame_recordWf (bs : List Byte) : recordWf (decodeFrame bs) :=
  ⟨rfl, signedBE_bounds (List.length_take_le 8 _)⟩

/-- Status_Kind 7-255 is unmapped, keeping the raw kind, and nothing else is (R164). -/
theorem classify_eq_unrecognized_iff {k v : Byte} : classify k = .unrecognized v ↔ v = k ∧ 7 ≤ k.toNat := by
  unfold classify
  split
  case h_8 =>
    have hge : 7 ≤ k.toNat := by grind
    simp [hge, eq_comm]
  all_goals simp [*]

/-- A record of a Status_Kind 0-6 is reported with OK (R162, R164). -/
theorem recordResponse_of_le {rec : StatusRecord} (hk : rec.kind = classify rec.statusKind)
    (h : rec.statusKind.toNat ≤ 6) :
    recordResponse rec = { code := .ok, data := [], record := some rec, info := 0 } := by
  refine recordResponse_ok fun v hv => ?_
  obtain ⟨-, hge⟩ := classify_eq_unrecognized_iff.mp (hk.symm.trans hv)
  omega

theorem kind_of_ge {rec : StatusRecord} (hk : rec.kind = classify rec.statusKind) (h : 7 ≤ rec.statusKind.toNat) :
    rec.kind = .unrecognized rec.statusKind :=
  hk.trans (classify_eq_unrecognized_iff.mpr ⟨rfl, h⟩)

/-- Settles O30: the seven rows written out, and the rest of the table with the CODEs by the unmapped kinds. -/
theorem statusKindTable : Obligations.StatusKindTable := by
  refine ⟨rfl, rfl, rfl, rfl, rfl, rfl, rfl, fun k hk => classify_eq_unrecognized_iff.mpr ⟨rfl, hk⟩,
    fun rec hkind => ⟨fun hle => ?recognized, fun hge => ?unmapped⟩⟩
  case recognized => rw [recordResponse_of_le hkind hle]
  case unmapped => rw [recordResponse_unrecognized (kind_of_ge hkind hge)]

/-- DECODE_STATUS of a held request answers with its operation's response (R162). -/
theorem exec_decodeStatus_of_busy {s : State} {req : Request} (hp : s.phase = .busy req) :
    exec .decodeStatus s = .next (respond (decodeStatusOp req.args) s) :=
  answer_of_busy decodeStatusOp hp

/-- Settles O29, by the two outcomes of R162's check; the record is that of the frame, and its response is by the class
of its Status_Kind byte. -/
theorem decodeStatusResponds : Obligations.DecodeStatusResponds := by
  refine ⟨rfl, fun s req hp => ?_⟩
  rw [exec_decodeStatus_of_busy hp]
  refine ⟨fun hl => ?frameLength, fun hl => ?record⟩
  case frameLength => rw [decodeStatusOp_frameLength hl, lengthInfo]
  case record =>
    obtain ⟨hkind, hmin, hmax⟩ := decodeFrame_recordWf req.args
    have hbyte : req.args[18]? = some (frameByte req.args 18) := by
      rw [frameByte_of_lt (by omega)]
      exact List.getElem?_eq_getElem _
    have hfields : (List.range 24).map (frameByte req.args) = req.args.take 24 := map_frameByte_range (by omega)
    have hexp : (decodeFrame req.args).expansion % 2 ^ 64 = (beValue (req.args.drop 24) : Int) := by
      rw [decodeFrame_expansion hl, signedBE_emod (by simp [hl])]
    rw [decodeStatusOp_record hl]
    refine ⟨decodeFrame req.args, frameByte req.args 18, hbyte, hfields, hmin, hmax, hexp, hkind,
      fun hle => ?recognized, fun hge => ?unmapped⟩
    case recognized => rw [recordResponse_of_le hkind hle]
    case unmapped =>
      have hunrec : (decodeFrame req.args).kind = .unrecognized (frameByte req.args 18) := kind_of_ge hkind hge
      exact ⟨hunrec, by rw [recordResponse_unrecognized hunrec, byteInfo]⟩

end Sys2Proof.Machine
end

section
/-! PROOFS. The errors (60_exceptions.md): the conditions of R189, the response each of them gives an operation, and from
these which code is raised where (R182, R184, R186, R187) and in what order (R189). -/

namespace Sys2Proof.Machine

/-- BAD_OPERAND's condition: a field holds a value its operation does not admit (R186). -/
def badField (i : Instr) : Prop := ∃ x : Byte, (i = .normalize x ∨ i = .compress x) ∧ 64 < x.toNat

/-- ARG_LENGTH_ERROR's condition: ARGS has a length the operation does not admit (R187). -/
def badArgs (i : Instr) (args : List Byte) : Prop :=
  (∃ n, i = .normalize n ∧ args.length ≠ 8) ∨ (∃ x, i = .compress x ∧ Config.wMax < args.length) ∨
    ((∃ c, i = instrOfCtrl c) ∧ args.length ≠ 0)

/-- FRAME_LENGTH_ERROR's condition (R182). -/
def badFrame (i : Instr) (args : List Byte) : Prop := i = .decodeStatus ∧ args.length ≠ 32

/-- UNRECOGNIZED_STATUS_KIND's condition, on the frame's byte 18 (R164, R183). -/
def badKind (i : Instr) (args : List Byte) : Prop :=
  i = .decodeStatus ∧ ∃ k : Byte, args[18]? = some k ∧ 7 ≤ k.toNat

/-- The seven CTRL rows are the instructions of the seven control sequences (R63). -/
theorem mem_ctrlInstrs_iff {i : Instr} :
    i ∈ [.ctrlGetStatus, .ctrlInitialize, .ctrlRasterMode, .ctrlExpandedMode, .ctrlCompressionMode, .ctrlClearBuffer,
      .ctrlPageFeed] ↔ ∃ c, i = instrOfCtrl c := by
  constructor
  · intro hi
    have hmap : i ∈ [CtrlName.getStatus, .initialization, .rasterMode, .expandedMode, .compressionMode, .clearBuffer,
      .pageFeed].map instrOfCtrl := hi
    obtain ⟨c, -, hc⟩ := List.mem_map.mp hmap
    exact ⟨c, hc.symm⟩
  · rintro ⟨c, rfl⟩
    cases c <;> simp [instrOfCtrl]

/-- The operations of the block, the seven CTRL rows taken together (R62). -/
theorem operation_cases {i : Instr} (hi : isHeader i = false) :
    (∃ n, i = .normalize n) ∨ (∃ x, i = .compress x) ∨ (∃ c, i = instrOfCtrl c) ∨
      (∃ n1 n2, i = .rasterFrame n1 n2) ∨ i = .decodeStatus := by
  cases i with
  | normalize n => exact .inl ⟨n, rfl⟩
  | compress x => exact .inr (.inl ⟨x, rfl⟩)
  | rasterFrame n1 n2 => exact .inr (.inr (.inr (.inl ⟨n1, n2, rfl⟩)))
  | decodeStatus => exact .inr (.inr (.inr (.inr rfl)))
  | litHeader h | repHeader h => simp [isHeader] at hi
  | _ => exact .inr (.inr (.inl (mem_ctrlInstrs_iff.mp (by simp))))

/-- Byte 18 of a frame of the right length is there to be classified (R160). -/
theorem getElem?_statusKind {args : List Byte} (h : args.length = 32) : args[18]? = some (frameByte args 18) := by
  rw [frameByte_of_lt (by omega)]
  exact List.getElem?_eq_getElem _

/-- A bad field is checked first, whatever ARGS holds (R101, R110). -/
theorem operationResponse_of_badField {i : Instr} {x : Byte} (hi : i = .normalize x ∨ i = .compress x)
    (hx : 64 < x.toNat) (req : Request) : operationResponse i req = errorResponse .badOperand (byteInfo x) := by
  rcases hi with rfl | rfl
  · exact normalizeOp_badOperand hx req.args
  · exact compressOp_badOperand hx req.args

/-- A length not admitted is checked next (R101, R110, R141). -/
theorem operationResponse_of_badArgs {i : Instr} {req : Request} (hf : ¬ badField i) (ha : badArgs i req.args) :
    operationResponse i req = errorResponse .argLengthError (lengthInfo req.args.length) := by
  rcases ha with ⟨n, rfl, hl⟩ | ⟨x, rfl, hl⟩ | ⟨⟨c, rfl⟩, hl⟩
  · exact normalizeOp_argLength (not_lt.mp fun hn => hf ⟨n, .inl rfl, hn⟩) hl
  · exact compressOp_argLength (not_lt.mp fun hx => hf ⟨x, .inr rfl, hx⟩) hl
  · rw [operationResponse_instrOfCtrl, ctrlOp_argLength c hl]

/-- DECODE_STATUS checks the frame's length before anything else (R162). -/
theorem operationResponse_of_badFrame {i : Instr} {req : Request} (h : badFrame i req.args) :
    operationResponse i req = errorResponse .frameLengthError (lengthInfo req.args.length) := by
  obtain ⟨rfl, hl⟩ := h
  exact decodeStatusOp_frameLength hl

/-- An unmapped Status_Kind is reported once the frame's length has passed (R162, R165). -/
theorem operationResponse_code_of_badKind {i : Instr} {req : Request} (hfr : ¬ badFrame i req.args)
    (hk : badKind i req.args) : (operationResponse i req).code = .unrecognizedStatusKind := by
  obtain ⟨rfl, k, hbyte, hge⟩ := hk
  have hl : req.args.length = 32 := not_not.mp fun hl => hfr ⟨rfl, hl⟩
  obtain rfl : frameByte req.args 18 = k := Option.some.inj ((getElem?_statusKind hl).symm.trans hbyte)
  obtain ⟨hkind, -⟩ := decodeFrame_recordWf req.args
  rw [operationResponse, decodeStatusOp_record hl, recordResponse_unrecognized (kind_of_ge hkind hge)]

/-- Where no condition holds an operation answers OK: its checks are no others (R189). -/
theorem operationResponse_code_ok {i : Instr} {req : Request} (hi : isHeader i = false) (hf : ¬ badField i)
    (ha : ¬ badArgs i req.args) (hfr : ¬ badFrame i req.args) (hk : ¬ badKind i req.args) :
    (operationResponse i req).code = .ok := by
  rcases operation_cases hi with ⟨n, rfl⟩ | ⟨x, rfl⟩ | ⟨c, rfl⟩ | ⟨n1, n2, rfl⟩ | rfl
  · have hn : n.toNat ≤ 64 := not_lt.mp fun hn => hf ⟨n, .inl rfl, hn⟩
    have hl : req.args.length = 8 := not_not.mp fun hl => ha (.inl ⟨n, rfl, hl⟩)
    rw [operationResponse, normalizeOp_ok hn hl, okResponse]
  · have hx : x.toNat ≤ 64 := not_lt.mp fun hx => hf ⟨x, .inr rfl, hx⟩
    have hl : req.args.length ≤ Config.wMax := not_lt.mp fun hl => ha (.inr (.inl ⟨x, rfl, hl⟩))
    rw [operationResponse, compressOp_ok hx hl, okResponse]
  · have hl : req.args.length = 0 := not_not.mp fun hl => ha (.inr (.inr ⟨⟨c, rfl⟩, hl⟩))
    rw [operationResponse_instrOfCtrl, List.length_eq_zero_iff.mp hl, ctrlOp_ok, okResponse]
  · rfl
  · have hl : req.args.length = 32 := not_not.mp fun hl => hfr ⟨rfl, hl⟩
    have hle : (frameByte req.args 18).toNat ≤ 6 :=
      Nat.le_of_lt_succ (not_le.mp fun hge => hk ⟨rfl, _, getElem?_statusKind hl, hge⟩)
    obtain ⟨hkind, -⟩ := decodeFrame_recordWf req.args
    rw [operationResponse, decodeStatusOp_record hl, recordResponse_of_le hkind hle]

/-- Settles O33: a rejected word runs no operation, and each level below it is that condition's response. -/
theorem errorPriority : Obligations.ErrorPriority := by
  refine fun req => ⟨fun e hd => ?rejected, fun i hd => ?decoded⟩
  case rejected => rw [perform_of_decodeCmd_error hd, errorResponse]
  case decoded =>
    rw [perform_of_decodeCmd_ok hd]
    refine ⟨?badOperand, fun hf ha => ?argLength, fun _ hfr => ?frameLength,
      fun _ _ hfr hk => operationResponse_code_of_badKind hfr hk,
      operationResponse_code_ok (isHeader_of_decodeCmd hd)⟩
    case badOperand =>
      rintro ⟨x, hi, hx⟩
      rw [operationResponse_of_badField hi hx, errorResponse]
    case argLength => rw [operationResponse_of_badArgs hf ha, errorResponse]
    case frameLength => rw [operationResponse_of_badFrame hfr, errorResponse]

/-- Every code an operation's response can have, with the condition that holds then: SEGMENT_OVERFLOW_ERROR and
ILLEGAL_OPERATION are not among them (R184, R185). -/
theorem operationResponse_code_cases {i : Instr} (hi : isHeader i = false) (req : Request) :
    (badField i ∧ (operationResponse i req).code = .badOperand) ∨
    ((¬ badField i ∧ badArgs i req.args) ∧ (operationResponse i req).code = .argLengthError) ∨
    (badFrame i req.args ∧ (operationResponse i req).code = .frameLengthError) ∨
    ((¬ badFrame i req.args ∧ badKind i req.args) ∧ (operationResponse i req).code = .unrecognizedStatusKind) ∨
    (operationResponse i req).code = .ok := by
  by_cases hf : badField i
  · obtain ⟨x, hx, hlt⟩ := hf
    exact .inl ⟨⟨x, hx, hlt⟩, by rw [operationResponse_of_badField hx hlt, errorResponse]⟩
  by_cases ha : badArgs i req.args
  · exact .inr (.inl ⟨⟨hf, ha⟩, by rw [operationResponse_of_badArgs hf ha, errorResponse]⟩)
  by_cases hfr : badFrame i req.args
  · exact .inr (.inr (.inl ⟨hfr, by rw [operationResponse_of_badFrame hfr, errorResponse]⟩))
  by_cases hk : badKind i req.args
  · exact .inr (.inr (.inr (.inl ⟨⟨hfr, hk⟩, operationResponse_code_of_badKind hfr hk⟩)))
  · exact .inr (.inr (.inr (.inr (operationResponse_code_ok hi hf ha hfr hk))))

theorem badOperand_iff {i : Instr} (hi : isHeader i = false) (req : Request) :
    (operationResponse i req).code = .badOperand ↔ badField i := by
  refine ⟨fun hc => ?_, fun ⟨x, hx, hlt⟩ => by rw [operationResponse_of_badField hx hlt, errorResponse]⟩
  simpa [hc] using operationResponse_code_cases hi req

theorem argLengthError_iff {i : Instr} (hi : isHeader i = false) (req : Request) :
    (operationResponse i req).code = .argLengthError ↔ ¬ badField i ∧ badArgs i req.args := by
  refine ⟨fun hc => ?_, fun ⟨hf, ha⟩ => by rw [operationResponse_of_badArgs hf ha, errorResponse]⟩
  simpa [hc] using operationResponse_code_cases hi req

theorem frameLengthError_iff {i : Instr} (hi : isHeader i = false) (req : Request) :
    (operationResponse i req).code = .frameLengthError ↔ badFrame i req.args := by
  refine ⟨fun hc => ?_, fun hfr => by rw [operationResponse_of_badFrame hfr, errorResponse]⟩
  simpa [hc] using operationResponse_code_cases hi req

theorem unrecognizedStatusKind_iff {i : Instr} (hi : isHeader i = false) (req : Request) :
    (operationResponse i req).code = .unrecognizedStatusKind ↔ ¬ badFrame i req.args ∧ badKind i req.args := by
  refine ⟨fun hc => ?_, fun ⟨hfr, hk⟩ => operationResponse_code_of_badKind hfr hk⟩
  simpa [hc] using operationResponse_code_cases hi req

/-- The two conditions on DECODE_STATUS's frame, in the words of R181. -/
theorem frame_ok_and_badKind_iff {i : Instr} {args : List Byte} : ¬ badFrame i args ∧ badKind i args ↔
    i = .decodeStatus ∧ args.length = 32 ∧ ∃ k : Byte, args[18]? = some k ∧ 7 ≤ k.toNat := by
  constructor
  · rintro ⟨hfr, rfl, hk⟩
    exact ⟨rfl, not_not.mp fun hl => hfr ⟨rfl, hl⟩, hk⟩
  · rintro ⟨rfl, hl, hk⟩
    exact ⟨fun hfr => hfr.2 hl, rfl, hk⟩

/-- A response returned is that of an operation performed on the request held: the header rows return none (R120). -/
theorem operation_of_response {i : Instr} {s t : State} {req : Request} {r : Response} (hp : s.phase = .busy req)
    (h : exec i s = .next t) (hr : t.responses = s.responses ++ [r]) :
    isHeader i = false ∧ r = operationResponse i req := by
  by_cases hi : isHeader i = false
  · rw [exec_eq_answer hi hp] at h
    cases h
    exact ⟨hi, by simpa using hr.symm⟩
  · have hkept : t.responses = s.responses := by
      cases i with
      | litHeader b | repHeader b => cases h; exact readSegment_responses _ s
      | _ => exact absurd rfl hi
    simp [hkept] at hr

/-- Settles O32: the response is the operation's, and each code's condition is that of its rule. -/
theorem errorsRaisedExactlyWhereNamed : Obligations.ErrorsRaisedExactlyWhereNamed := by
  intro i s t req r hp h hr
  obtain ⟨hi, rfl⟩ := operation_of_response hp h hr
  have hcodes := operationResponse_code_cases hi req
  refine ⟨frameLengthError_iff hi req, fun hc => ?frameInfo, badOperand_iff hi req,
    fun x hx hlt => operationResponse_of_badField hx hlt req, ?argLength, fun hc => ?argInfo, ?kind,
    fun hc => ?overflow, fun hc => ?illegal⟩
  case frameInfo => rw [operationResponse_of_badFrame ((frameLengthError_iff hi req).mp hc), lengthInfo]
  case argLength =>
    rw [argLengthError_iff hi, Ne, badOperand_iff hi, mem_ctrlInstrs_iff, badArgs]
  case argInfo =>
    obtain ⟨hf, ha⟩ := (argLengthError_iff hi req).mp hc
    rw [operationResponse_of_badArgs hf ha, lengthInfo]
  case kind => rw [unrecognizedStatusKind_iff hi, frame_ok_and_badKind_iff]
  case overflow => simp [hc] at hcodes
  case illegal => simp [hc] at hcodes

end Sys2Proof.Machine
end

section
/-! PROOFS. Reset (70_reset_and_hazards.md R210, R211): the state it leaves the block in, and the step that takes it. -/

namespace Sys2Proof.Machine

@[simp] theorem State.reset_phase : State.reset.phase = .idle := rfl
@[simp] theorem State.reset_responses : State.reset.responses = [] := rfl
@[simp] theorem State.reset_work : State.reset.work = .none := rfl

/-- Settles O42, by the reset state's own fields. -/
theorem resetStateIdle : Obligations.ResetStateIdle :=
  ⟨State.reset_phase, State.reset_responses, State.reset_work⟩

/-- A reset the block meets in the script acts at once, before the request it may hold is performed (R211; log 2). -/
theorem step_of_reset {s : State} {rest : List Event} (ha : s.active = .block) (hs : s.script = .reset :: rest) :
    step s = .next (resetBlock { s with script := rest }) := by
  rw [step_block ha, hs, blockFetch, carryOut_moved]

/-- Settles O43: the step is the reset itself, whatever the phase, and the rest is what `resetBlock` clears and keeps. -/
theorem resetDiscards : Obligations.ResetDiscards := by
  intro s rest ha hs
  exact ⟨_, step_of_reset ha hs, resetBlock_phase _, resetBlock_work _, resetBlock_responses _, resetBlock_received _,
    resetBlock_script _⟩

end Sys2Proof.Machine
end


section
/-! PROOFS. The decoder and the encoder read one table (30_encoding.md R62-R66, R69): each is the other's inverse. -/

namespace Sys2Proof

theorem decodeCmd_normalize (n : Byte) : decodeCmd (cmdWord 0x0 0 n 0) = .ok (.normalize n) := by
  simp [decodeCmd_cmdWord]

theorem decodeCmd_compress (t : Byte) : decodeCmd (cmdWord 0x1 0 t 0) = .ok (.compress t) := by
  simp [decodeCmd_cmdWord]

theorem decodeCmd_rasterFrame (n1 n2 : Byte) : decodeCmd (cmdWord 0x3 0 n1 n2) = .ok (.rasterFrame n1 n2) := by
  simp [decodeCmd_cmdWord]

theorem decodeCmd_decodeStatus : decodeCmd (cmdWord 0x4 0 0 0) = .ok .decodeStatus := by
  simp [decodeCmd_cmdWord]

/-- The seven CTRL rows share one encoding rule (R63). -/
theorem encode_instrOfCtrl (c : CtrlName) : encode (instrOfCtrl c) = .command (ctrlWord c) := by
  cases c <;> rfl

theorem instrOfCtrl_wellFormed (c : CtrlName) : (instrOfCtrl c).wellFormed = true := by
  cases c <;> rfl

theorem decodeHeader_of_le {h : Byte} (hle : h ≤ 0x7F#8) : decodeHeader h = .litHeader h := if_pos hle

theorem decodeHeader_of_ge {h : Byte} (hge : 0x80#8 ≤ h) : decodeHeader h = .repHeader h := if_neg (by bv_omega)

/-- Both header rows are encoded as the header byte itself (R69). -/
theorem encode_decodeHeader (h : Byte) : encode (decodeHeader h) = .header h := by
  unfold decodeHeader
  split <;> rfl

/-- The word of a decoded instruction is rebuilt from the fields its row names, every other field being 0 (R64). -/
theorem encode_of_decodeCmd_ok {w : CmdWord} {i : Instr} (h : decodeCmd w = .ok i) : encode i = .command w := by
  obtain ⟨hr, ⟨ho, hs, hb, rfl⟩ | ⟨ho, hs, hb, rfl⟩ | ⟨c, ho, hs, ha, hb, rfl⟩ | ⟨ho, hs, rfl⟩ | ⟨ho, hs, ha, hb, rfl⟩⟩ :=
    decodeCmd_ok h
  · rw [← cmdWord_fields hr, ho, hs, hb, cmdA_cmdWord, encode]
  · rw [← cmdWord_fields hr, ho, hs, hb, cmdA_cmdWord, encode]
  · rw [← cmdWord_fields hr, ho, hs, ha, hb, encode_instrOfCtrl, ctrlWord]
  · rw [← cmdWord_fields hr, ho, hs, cmdA_cmdWord, cmdB_cmdWord, encode]
  · rw [← cmdWord_fields hr, ho, hs, ha, hb, encode]

/-- Every command word's instruction is well formed: only the header rows have a check (R64, R69). -/
theorem wellFormed_of_decodeCmd_ok {w : CmdWord} {i : Instr} (h : decodeCmd w = .ok i) : i.wellFormed = true := by
  obtain ⟨-, ⟨-, -, -, rfl⟩ | ⟨-, -, -, rfl⟩ | ⟨c, -, -, -, -, rfl⟩ | ⟨-, -, rfl⟩ | ⟨-, -, -, -, rfl⟩⟩ := decodeCmd_ok h
  case inr.inr.inl => exact instrOfCtrl_wellFormed c
  all_goals rfl

end Sys2Proof

namespace Sys2Proof.Machine

/-- Settles O1, row by row: the decoder finds the row whose fields the encoder has written. -/
theorem decodeReadsEncodedInstruction : Obligations.DecodeReadsEncodedInstruction := by
  intro i hwf
  cases i with
  | normalize n => exact decodeCmd_normalize n
  | compress t => exact decodeCmd_compress t
  | rasterFrame n1 n2 => exact decodeCmd_rasterFrame n1 n2
  | decodeStatus => exact decodeCmd_decodeStatus
  | litHeader h => exact congrArg Except.ok (decodeHeader_of_le (of_decide_eq_true hwf))
  | repHeader h => exact congrArg Except.ok (decodeHeader_of_ge (of_decide_eq_true hwf))
  | ctrlGetStatus => exact decodeCmd_ctrlWord .getStatus
  | ctrlInitialize => exact decodeCmd_ctrlWord .initialization
  | ctrlRasterMode => exact decodeCmd_ctrlWord .rasterMode
  | ctrlExpandedMode => exact decodeCmd_ctrlWord .expandedMode
  | ctrlCompressionMode => exact decodeCmd_ctrlWord .compressionMode
  | ctrlClearBuffer => exact decodeCmd_ctrlWord .clearBuffer
  | ctrlPageFeed => exact decodeCmd_ctrlWord .pageFeed

/-- Settles O2, by the two shapes of an encoding. -/
theorem encodeInvertsDecode : Obligations.EncodeInvertsDecode := by
  intro e i h
  cases e with
  | command w => exact ⟨encode_of_decodeCmd_ok h, wellFormed_of_decodeCmd_ok h⟩
  | header b =>
    obtain rfl := Except.ok.inj h
    exact ⟨encode_decodeHeader b, decodeHeader_wellFormed b⟩

/-- Settles O4: each command word is read as the fields it is written from. -/
theorem writtenWordsDecode : Obligations.WrittenWordsDecode :=
  ⟨decodeCmd_normalize 8, decodeCmd_compress 3, decodeCmd_ctrlWord .compressionMode, decodeCmd_rasterFrame 0x05 0x12,
    decodeCmd_decodeStatus, rfl, rfl⟩

end Sys2Proof.Machine
end

section
/-! PROOFS. The assembler (30_encoding.md R72): what its forms assemble to, and the worked lines. -/

namespace Sys2Proof.Machine

/-- A signed 64-bit integer is read back from its two's-complement pattern (R11). -/
theorem sext64_toNat_emod {v : Int} (hmin : -2 ^ 63 ≤ v) (hmax : v ≤ 2 ^ 63 - 1) : sext64 (v % 2 ^ 64).toNat = v := by
  unfold sext64
  split <;> omega

/-- The 8 bytes NORMALIZE's value is assembled to hold the value (R43, R72). -/
theorem signedBE_bytesBE {v : Int} (hmin : -2 ^ 63 ≤ v) (hmax : v ≤ 2 ^ 63 - 1) :
    signedBE (bytesBE 8 (v % 2 ^ 64).toNat) = v := by
  rw [signedBE, beValue_bytesBE_of_lt (by omega), sext64_toNat_emod hmin hmax]

theorem assembleNormalize_of_bounds {n : Nat} {v : Int} (hn : n ≤ 255) (hmin : -2 ^ 63 ≤ v) (hmax : v ≤ 2 ^ 63 - 1) :
    assembleNormalize n v =
      some { cmd := cmdWord 0x0 0 (BitVec.ofNat 8 n) 0, args := bytesBE 8 (v % 2 ^ 64).toNat } :=
  if_pos ⟨hn, hmin, hmax⟩

theorem assembleNormalize_eq_none {n : Nat} {v : Int} (h : 255 < n ∨ v < -2 ^ 63 ∨ 2 ^ 63 - 1 < v) :
    assembleNormalize n v = none :=
  if_neg (by omega)

theorem assembleCompress_of_le {t : Nat} (h : t ≤ 255) (bs : List Byte) :
    assembleCompress t bs = some { cmd := cmdWord 0x1 0 (BitVec.ofNat 8 t) 0, args := bs } :=
  if_pos h

theorem assembleCompress_eq_none {t : Nat} (h : 255 < t) (bs : List Byte) : assembleCompress t bs = none :=
  if_neg (Nat.not_le.mpr h)

/-- Settles O58, form by form: in range the form's word decodes to its operation, out of range there is no request. -/
theorem assembledFormsDecode : Obligations.AssembledFormsDecode := by
  refine ⟨fun n v hn hmin hmax => ?normalize, fun n v h => assembleNormalize_eq_none h, fun t bs ht => ?compress,
    fun t bs ht => assembleCompress_eq_none ht bs, fun c => ⟨ctrlWord c, rfl, decodeCmd_ctrlWord c⟩,
    fun n1 n2 bs h1 h2 => ?raster, fun n1 n2 bs h => assembleRaster_eq_none h bs,
    fun bs => ⟨_, rfl, decodeCmd_decodeStatus⟩⟩
  case normalize =>
    exact ⟨_, assembleNormalize_of_bounds hn hmin hmax, decodeCmd_normalize _, bytesBE_length 8 _,
      signedBE_bytesBE hmin hmax⟩
  case compress => exact ⟨_, assembleCompress_of_le ht bs, decodeCmd_compress _⟩
  case raster => exact ⟨_, assembleRaster_of_le h1 h2 bs, decodeCmd_rasterFrame _ _⟩

/-- Settles O57: closed lines of text, each run through the tokenizer, the parser and the assembler. -/
theorem workedLinesAssemble : Obligations.WorkedLinesAssemble :=
  ⟨by decide, by decide, by decide, by decide, by decide⟩

end Sys2Proof.Machine
end

section
/-! PROOFS. The step of a block that holds a request (10_state.md R25, R26; log 2): when it answers at once, and that no
step stops the machine (60_exceptions.md R180, R191). -/

namespace Sys2Proof.Machine

/-- The script's next event leaves a block that holds a request to perform it: it is no reset and no progress, and no take
that finds a response (log 2). -/
def leavesToPerform (s : State) : Prop :=
  (∀ rest, s.script ≠ .reset :: rest) ∧ (∀ rest, s.script ≠ .progress :: rest) ∧
    (∀ rest, s.script = .take :: rest → s.responses = [])

/-- With no response waiting, a take is dropped by an idle block and waits in BUSY (log 2). -/
theorem blockFetch_take_nil {s : State} (hr : s.responses = []) (rest : List Event) :
    blockFetch (.take :: rest) s = performOr { s with script := rest } s := by
  simp only [blockFetch, hr]

theorem blockFetch_take_cons {s : State} {r : Response} {rs : List Response} (hr : s.responses = r :: rs)
    (rest : List Event) : blockFetch (.take :: rest) s =
      .moved { s with script := rest, responses := rs, received := s.received ++ [r] } := by
  simp only [blockFetch, hr]

/-- Where nothing comes first, the block's move is to perform the request held; only what an idle block would do instead
depends on the event. -/
theorem blockFetch_of_leavesToPerform {s : State} (h : leavesToPerform s) :
    ∃ o, blockFetch s.script s = performOr o s := by
  obtain ⟨hreset, hprogress, htake⟩ := h
  cases hs : s.script with
  | nil => exact ⟨_, rfl⟩
  | cons e rest =>
    cases e with
    | send | awaitIdle | readLine => exact ⟨_, rfl⟩
    | take => exact ⟨_, blockFetch_take_nil (htake rest hs) rest⟩
    | reset => exact absurd hs (hreset rest)
    | progress => exact absurd hs (hprogress rest)

/-- Then the next step answers the request held, with `Perform` (R26). -/
theorem step_answers {s : State} {req : Request} (ha : s.active = .block) (hp : s.phase = .busy req)
    (h : leavesToPerform s) : step s = .next (respond (perform req) s) := by
  obtain ⟨o, ho⟩ := blockFetch_of_leavesToPerform h
  rw [step_block ha, ho, carryOut_performOr, hp]

/-- Settles O5: the answer is that of the operation the word decodes to. -/
theorem stepRunsHeldRequest : Obligations.StepRunsHeldRequest := by
  intro s req i ha hp hd hreset hprogress htake
  refine ⟨wellFormed_of_decodeCmd_ok hd, ?_⟩
  rw [step_answers ha hp ⟨hreset, hprogress, htake⟩, exec_of_decodeCmd_ok hp hd]

/-- Settles O34: the answer is `Perform`, which rejects the word by name. -/
theorem illegalWordAnswered : Obligations.IllegalWordAnswered := by
  intro s req e ha hp hd hreset hprogress htake
  rw [step_answers ha hp ⟨hreset, hprogress, htake⟩, perform_of_decodeCmd_error hd, errorResponse]

theorem leavesToPerform_of_send {s : State} {req : Request} {rest : List Event} (hs : s.script = .send req :: rest) :
    leavesToPerform s := by
  simp [leavesToPerform, hs]

/-- An idle block accepts the request the host sends (R25). -/
theorem step_accepts {s : State} {req : Request} {rest : List Event} (ha : s.active = .block) (hp : s.phase = .idle)
    (hs : s.script = .send req :: rest) : step s = .next (acceptRequest req { s with script := rest }) := by
  rw [step_block ha, hs, blockFetch, carryOut_performOr, hp]

/-- Settles O45: in IDLE the sent request is accepted; in BUSY it leaves the block to answer the one it holds. -/
theorem requestAcceptedOnlyInIdle : Obligations.RequestAcceptedOnlyInIdle := by
  intro s req rest ha hs
  exact ⟨fun hp => step_accepts ha hp hs,
    fun cur hp => ⟨step_answers ha hp (leavesToPerform_of_send hs), (respond_script _ s).trans hs⟩⟩

/-- The host takes the oldest response, whatever the phase (R53; log 12). -/
theorem step_takes {s : State} {rest : List Event} {r : Response} {rs : List Response} (ha : s.active = .block)
    (hs : s.script = .take :: rest) (hr : s.responses = r :: rs) :
    step s = .next { s with script := rest, responses := rs, received := s.received ++ [r] } := by
  rw [step_block ha, hs, blockFetch_take_cons hr, carryOut_moved]

/-- Settles O46, by the step that takes. -/
theorem hostTakesOldestResponse : Obligations.HostTakesOldestResponse :=
  fun _ _ _ _ ha hs hr => step_takes ha hs hr

/-- Settles O52: without an event the idle block has nothing to perform and nothing to move to. -/
theorem idleBlockStays : Obligations.IdleBlockStays := by
  intro s ha hp hs
  rw [step_block ha, hs, blockFetch, carryOut_performOr, hp]

theorem step_progresses {s : State} {rest : List Event} (ha : s.active = .block) (hs : s.script = .progress :: rest) :
    step s = .next (advanceWork { s with script := rest }) := by
  rw [step_block ha, hs, blockFetch, carryOut_moved]

/-- In IDLE there is no request whose work could advance. -/
theorem advanceWork_of_idle {s : State} (hp : s.phase = .idle) : advanceWork s = s := by
  simp only [advanceWork, hp]

/-- Settles O53: the step is the work's advance, which writes `work` alone. -/
theorem progressChangesWorkAlone : Obligations.ProgressChangesWorkAlone := by
  intro s rest ha hs
  refine ⟨(advanceWork { s with script := rest }).work, ?_, fun hp => ?_⟩
  · rw [step_progresses ha hs, advanceWork_eq]
  · have hkept : advanceWork { s with script := rest } = { s with script := rest } := advanceWork_of_idle hp
    rw [hkept]

/-- A block's move is a move of its own or performs the request held, if there is one. -/
theorem blockFetch_cases (program : List Event) (s : State) :
    (∃ t, blockFetch program s = .moved t) ∨ ∃ o, blockFetch program s = performOr o s := by
  unfold blockFetch
  split
  case h_3 =>
    split
    · exact .inl ⟨_, rfl⟩
    · exact .inr ⟨_, rfl⟩
  case h_5 | h_6 => exact .inl ⟨_, rfl⟩
  all_goals exact .inr ⟨_, rfl⟩

/-- Performing the request held, or moving on, always answers a next state: a rejected word is answered too (R185). -/
theorem carryOut_performOr_next (o s : State) : ∃ t, carryOut (performOr o s) s = .next t := by
  rw [carryOut_performOr]
  split <;> exact ⟨_, rfl⟩

/-- Every state's step answers a next state. -/
theorem step_next (s : State) : stepSafe s := by
  have hact : s.active = .reader ∨ s.active = .block := by cases s.active <;> simp
  obtain ha | ha := hact
  · cases hr : s.reader.rest with
    | nil => exact ⟨_, step_reader_end ha hr⟩
    | cons b rest => exact ⟨_, step_reader_header ha hr⟩
  · rw [stepSafe, step_block ha]
    obtain ⟨t, ht⟩ | ⟨o, ho⟩ := blockFetch_cases s.script s
    · exact ⟨t, by rw [ht, carryOut_moved]⟩
    · rw [ho]
      exact carryOut_performOr_next o s

/-- Settles O50, by induction on the number of steps, each of which is safe. -/
theorem runsNeverStop : Obligations.RunsNeverStop := by
  intro k
  induction k with
  | zero => exact fun s => ⟨s, rfl⟩
  | succ k ih =>
    intro s
    obtain ⟨u, hu⟩ := step_next s
    rw [runSteps_succ_of_next hu]
    exact ih u

end Sys2Proof.Machine
end

section
/-! PROOFS. The two instruction kinds' frames (10_state.md R25, 41_compressor.md R120): the operations of the block, which
only respond, and the header rows, which only move the reference decoder. -/

namespace Sys2Proof.Machine

theorem isHeader_eq_false {i : Instr} (hlit : ∀ h, i ≠ .litHeader h) (hrep : ∀ h, i ≠ .repHeader h) :
    isHeader i = false := by
  cases i with
  | litHeader h => exact absurd rfl (hlit h)
  | repHeader h => exact absurd rfl (hrep h)
  | _ => rfl

/-- Settles O35: a next state of an operation is the request's response returned. -/
theorem operationsOnlyRespond : Obligations.OperationsOnlyRespond := by
  intro i s t hlit hrep h
  obtain ⟨req, hp, rfl⟩ := exec_eq_next (isHeader_eq_false hlit hrep) h
  exact ⟨⟨req, hp⟩, respond_phase _ s, respond_work _ s, ⟨_, respond_responses _ s⟩, respond_script _ s,
    respond_received _ s, respond_active _ s, respond_reader _ s⟩

/-- Settles O51, from what every operation of the block comes to in IDLE. -/
theorem operationNeedsRequest : Obligations.OperationNeedsRequest :=
  fun _ _ hlit hrep hp => exec_of_idle (isHeader_eq_false hlit hrep) hp

theorem exec_litHeader (h : Byte) (s : State) :
    exec (.litHeader h) s = .next (readSegment (takeLiteral h s.reader.rest) s) := rfl

theorem exec_repHeader (h : Byte) (s : State) :
    exec (.repHeader h) s = .next (readSegment (takeRepeat h s.reader.rest) s) := rfl

/-- A header row's meaning is one round of the reference decoder. -/
theorem exec_header_eq_next {i : Instr} {h : Byte} {s t : State} (hi : i = .litHeader h ∨ i = .repHeader h)
    (ht : exec i s = .next t) : ∃ found, t = readSegment found s := by
  obtain rfl | rfl := hi
  · exact ⟨_, (Host.Outcome.next.inj ((exec_litHeader h s).symm.trans ht)).symm⟩
  · exact ⟨_, (Host.Outcome.next.inj ((exec_repHeader h s).symm.trans ht)).symm⟩

/-- Settles O36: a round writes `reader` alone. -/
theorem headersLeaveBlockAlone : Obligations.HeadersLeaveBlockAlone := by
  intro i h s t hi ht
  obtain ⟨found, rfl⟩ := exec_header_eq_next hi ht
  exact ⟨readSegment_phase _ s, readSegment_work _ s, readSegment_responses _ s, readSegment_script _ s,
    readSegment_received _ s, readSegment_active _ s⟩

/-- Settles O6: the reference decoder's move is the header's row, read from the front of its line. -/
theorem stepRunsHeader : Obligations.StepRunsHeader := by
  intro s h rest ha hr
  refine ⟨decodeHeader_wellFormed h, rfl, ?_⟩
  rw [step_reader_header ha hr, exec_decodeHeader]

/-- A table row's word: 32 bits that decode to a command, or 8 bits that are a header (opcode table, both formats). -/
theorem decodeTableWord_eq_some {nbits w : Nat} {i : Instr} (h : decodeTableWord nbits w = some i) :
    (nbits = 32 ∧ decodeCmd (BitVec.ofNat 32 w) = .ok i) ∨ (nbits = 8 ∧ decodeHeader (BitVec.ofNat 8 w) = i) := by
  unfold decodeTableWord at h
  split at h
  · cases h
  split at h
  · next hn =>
    cases hd : decodeCmd (BitVec.ofNat 32 w) with
    | ok j =>
      rw [decode, hd] at h
      exact .inl ⟨hn, congrArg Except.ok (Option.some.inj h)⟩
    | error e =>
      rw [decode, hd] at h
      cases h
  split at h
  · next hn => exact .inr ⟨hn, Option.some.inj h⟩
  · cases h

/-- `withFetchWord` puts a wait in front of every event that would come before the request's answer (log 5). -/
theorem leavesToPerform_holdCommand (w : CmdWord) (s : State) : leavesToPerform (holdCommand w s) := by
  rw [leavesToPerform, holdCommand_script]
  unfold unpreempted
  split
  case h_4 hreset hprogress htake => exact ⟨hreset, hprogress, fun rest hs => absurd hs (htake rest)⟩
  all_goals simp

theorem step_holdCommand {w : CmdWord} {i : Instr} (hd : decodeCmd w = .ok i) (s : State) :
    step (holdCommand w s) = exec i (holdCommand w s) := by
  have hp := holdCommand_phase w s
  rw [step_answers (holdCommand_active w s) hp (leavesToPerform_holdCommand w s), exec_of_decodeCmd_ok hp hd]

theorem step_holdHeader (h : Byte) (s : State) : step (holdHeader h s) = exec (decodeHeader h) (holdHeader h s) := by
  rw [step_reader_header (holdHeader_active h s) (congrArg Reader.rest (holdHeader_reader h s)), exec_decodeHeader]

/-- Settles O7: a word of 32 bits stands as a request held whose script leaves it to be performed, a word of 8 bits as the
header the reference decoder reads next. -/
theorem fetchWordRunsNext : Obligations.FetchWordRunsNext := by
  intro s nbits w i h
  obtain ⟨rfl, hd⟩ | ⟨rfl, rfl⟩ := decodeTableWord_eq_some h
  · exact step_holdCommand hd s
  · exact step_holdHeader _ s

end Sys2Proof.Machine
end

section
/-! PROOFS. Runs of the interface: requests sent one after another (20_memory.md R53), and an accepted request's answer
(70_reset_and_hazards.md R219; log 2, log 3, log 7). -/

namespace Sys2Proof.Machine

theorem leavesToPerform_of_map_send {s : State} {reqs : List Request} (hs : s.script = reqs.map Event.send) :
    leavesToPerform s := by
  cases reqs <;> simp [leavesToPerform, hs]

/-- A request sent to an idle block is accepted by one step and answered by the next; all that has changed then is that the
event is gone and the response waits. -/
theorem runSteps_of_send {s : State} {req : Request} {reqs : List Request} (ha : s.active = .block)
    (hp : s.phase = .idle) (hw : s.work = .none) (hs : s.script = (req :: reqs).map Event.send) (k : Nat) :
    runSteps (k + 2) s =
      runSteps k { s with script := reqs.map Event.send, responses := s.responses ++ [perform req] } := by
  have hanswer : step (acceptRequest req { s with script := reqs.map Event.send }) =
      .next (respond (perform req) (acceptRequest req { s with script := reqs.map Event.send })) :=
    step_answers ((acceptRequest_active _ _).trans ha) (acceptRequest_phase _ _) (leavesToPerform_of_map_send rfl)
  have hback : respond (perform req) (acceptRequest req { s with script := reqs.map Event.send }) =
      { s with script := reqs.map Event.send, responses := s.responses ++ [perform req] } := by
    rw [respond, acceptRequest, hp, hw]
  rw [runSteps_succ_of_next (step_accepts ha hp hs), runSteps_succ_of_next hanswer, hback]

/-- Settles O48, by induction on the requests sent: two steps each. -/
theorem requestsAnsweredInOrder : Obligations.RequestsAnsweredInOrder := by
  intro s reqs ha hp hw hs
  induction reqs generalizing s with
  | nil =>
    rw [List.map_nil] at hs
    rw [List.map_nil, List.append_nil, ← hs, List.length_nil, Nat.mul_zero, runSteps_zero]
  | cons req reqs ih =>
    have hrest := ih { s with script := reqs.map Event.send, responses := s.responses ++ [perform req] } ha hp hw rfl
    rw [List.length_cons, Nat.mul_succ, runSteps_of_send ha hp hw hs, hrest]
    simp only [List.map_cons, List.append_assoc, List.singleton_append]

/-- Within `n` steps the request is answered: the block is IDLE and one more response is returned, `Perform` of it. -/
def answeredWithin (n : Nat) (req : Request) (s : State) : Prop :=
  ∃ k t, k ≤ n ∧ runSteps k s = .next t ∧ t.phase = .idle ∧ returned t = returned s ++ [perform req]

theorem answeredWithin_of_leavesToPerform {s : State} {req : Request} (ha : s.active = .block)
    (hp : s.phase = .busy req) (h : leavesToPerform s) (n : Nat) : answeredWithin (n + 1) req s :=
  ⟨1, _, Nat.le_add_left 1 n, runSteps_succ_of_next (step_answers ha hp h) 0, respond_phase _ s, returned_respond _ s⟩

/-- A step that returns no response puts the answer off by one step. -/
theorem answeredWithin_of_step {s u : State} {req : Request} {n : Nat} (hstep : step s = .next u)
    (hret : returned u = returned s) (h : answeredWithin n req u) : answeredWithin (n + 1) req s := by
  obtain ⟨k, t, hk, hrun, hidle, ht⟩ := h
  exact ⟨k + 1, t, Nat.succ_le_succ hk, (runSteps_succ_of_next hstep k).trans hrun, hidle, hret ▸ ht⟩

/-- Settles O49, by induction on the script: an event either leaves the block to answer, or, being no reset, is used up
while the request stays held and no response is returned. -/
theorem acceptedRequestAnswered : Obligations.AcceptedRequestAnswered := by
  intro s req ha hp hreset
  change answeredWithin (s.script.length + 1) req s
  generalize hs : s.script = script at hreset
  induction script generalizing s with
  | nil => exact answeredWithin_of_leavesToPerform ha hp (by simp [leavesToPerform, hs]) _
  | cons e rest ih =>
    have hrest : Event.reset ∉ rest := fun hmem => hreset (List.mem_cons_of_mem e hmem)
    cases e with
    | reset => exact absurd List.mem_cons_self hreset
    | progress =>
      have hret : returned (advanceWork { s with script := rest }) = returned s := returned_advanceWork _
      exact answeredWithin_of_step (step_progresses ha hs) hret
        (ih _ ((advanceWork_active _).trans ha) ((advanceWork_phase _).trans hp) (advanceWork_script _) hrest)
    | take =>
      cases hr : s.responses with
      | nil => exact answeredWithin_of_leavesToPerform ha hp (by simp [leavesToPerform, hs, hr]) _
      | cons r rs => exact answeredWithin_of_step (step_takes ha hs hr) (returned_take hr rest) (ih _ ha hp rfl hrest)
    | send | awaitIdle | readLine =>
      exact answeredWithin_of_leavesToPerform ha hp (by simp [leavesToPerform, hs]) _

end Sys2Proof.Machine
end

section
/-! PROOFS. The working state shows in nothing else (10_state.md R28; log 3): a run of one state is matched, step by step, by
the run of another that differs in `work` alone. -/

namespace Sys2Proof.Machine

/-- The second state is the first with another working state. -/
def sameButWork (s t : State) : Prop := ∃ w, t = { s with work := w }

theorem sameButWork_readSegment (found : Option (Segment × List Byte)) (s : State) (w : Work) :
    sameButWork (readSegment found s) (readSegment found { s with work := w }) := by
  refine ⟨w, ?_⟩
  unfold readSegment
  split <;> rfl

theorem sameButWork_advanceWork (s : State) (w : Work) :
    sameButWork (advanceWork s) (advanceWork { s with work := w }) := by
  refine ⟨(advanceWork { s with work := w }).work, ?_⟩
  rw [advanceWork_eq s]
  exact advanceWork_eq _

/-- The answer of a request held is the request's, and discards the working state (R26, R28). -/
theorem performOr_sameButWork {o o' s t : State} (w : Work) (ho : sameButWork o o')
    (h : carryOut (performOr o s) s = .next t) :
    ∃ t', carryOut (performOr o' { s with work := w }) { s with work := w } = .next t' ∧ sameButWork t t' := by
  rw [carryOut_performOr]
  obtain ⟨req, hp, rfl⟩ | ⟨hp, rfl⟩ := performOr_move h
  · exact ⟨respond (perform req) { s with work := w }, by simp only [hp], .none, rfl⟩
  · exact ⟨o', by simp only [hp], ho⟩

theorem blockFetch_sameButWork (program : List Event) {s t : State} (w : Work)
    (h : carryOut (blockFetch program s) s = .next t) :
    ∃ t', carryOut (blockFetch program { s with work := w }) { s with work := w } = .next t' ∧ sameButWork t t' := by
  cases program with
  | nil => exact performOr_sameButWork w ⟨w, rfl⟩ h
  | cons e rest =>
    cases e with
    | send req => exact performOr_sameButWork w ⟨.none, rfl⟩ h
    | awaitIdle => exact performOr_sameButWork w ⟨w, rfl⟩ h
    | readLine line => exact performOr_sameButWork w ⟨w, rfl⟩ h
    | reset =>
      obtain rfl := Host.Outcome.next.inj h
      exact ⟨_, rfl, .none, rfl⟩
    | progress =>
      obtain rfl := Host.Outcome.next.inj h
      exact ⟨_, rfl, sameButWork_advanceWork _ w⟩
    | take =>
      obtain hr | hne := eq_or_ne s.responses []
      · rw [blockFetch_take_nil hr] at h
        rw [blockFetch_take_nil (s := { s with work := w }) hr]
        exact performOr_sameButWork w ⟨w, rfl⟩ h
      · obtain ⟨r, rs, hr⟩ := List.exists_cons_of_ne_nil hne
        rw [blockFetch_take_cons hr] at h
        rw [blockFetch_take_cons (s := { s with work := w }) hr]
        obtain rfl := Host.Outcome.next.inj h
        exact ⟨_, rfl, w, rfl⟩

theorem step_sameButWork {s s' t : State} (hw : sameButWork s s') (h : step s = .next t) :
    ∃ t', step s' = .next t' ∧ sameButWork t t' := by
  obtain ⟨w, rfl⟩ := hw
  have hact : s.active = .reader ∨ s.active = .block := by cases s.active <;> simp
  obtain ha | ha := hact
  · cases hr : s.reader.rest with
    | nil =>
      obtain rfl := Host.Outcome.next.inj ((step_reader_end ha hr).symm.trans h)
      exact ⟨_, step_reader_end ha hr, w, rfl⟩
    | cons b rest =>
      obtain rfl := Host.Outcome.next.inj ((step_reader_header ha hr).symm.trans h)
      exact ⟨_, step_reader_header ha hr, sameButWork_readSegment _ s w⟩
  · rw [step_block ha] at h
    rw [step_block (s := { s with work := w }) ha]
    exact blockFetch_sameButWork s.script w h

theorem runSteps_sameButWork {k : Nat} {s s' t : State} (hw : sameButWork s s') (h : runSteps k s = .next t) :
    ∃ t', runSteps k s' = .next t' ∧ sameButWork t t' := by
  induction k generalizing s s' with
  | zero =>
    obtain rfl := Host.Outcome.next.inj h
    exact ⟨s', rfl, hw⟩
  | succ k ih =>
    obtain ⟨u, hu⟩ := step_next s
    obtain ⟨u', hu', hw'⟩ := step_sameButWork hw hu
    rw [runSteps_succ_of_next hu] at h
    rw [runSteps_succ_of_next hu']
    exact ih hw' h

/-- Settles O54: the second run is the one that matches the first. -/
theorem workingStateNeverShows : Obligations.WorkingStateNeverShows := by
  intro k s t u w ht hu
  obtain ⟨t', ht', w', rfl⟩ := runSteps_sameButWork ⟨w, rfl⟩ ht
  obtain rfl := Host.Outcome.next.inj (hu.symm.trans ht')
  rfl

end Sys2Proof.Machine
end

section
/-! PROOFS. Each clause of the state invariant, kept by the operation that writes its field: the shape of responses
(60_exceptions.md R180-R184), the working state (10_state.md R28; log 3) and the reference decoder (41_compressor.md R120;
log 1). -/

namespace Sys2Proof.Machine

theorem okResponse_wf (data : List Byte) : responseWf (okResponse data) :=
  ⟨rfl, by simp [okResponse]⟩

/-- A record's response carries the record, and its code is by the record's Kind (R162, R165). -/
theorem recordResponse_wf {rec : StatusRecord} (h : recordWf rec) : responseWf (recordResponse rec) := by
  have ⟨hkind, _⟩ := h
  rcases Nat.lt_or_ge rec.statusKind.toNat 7 with hlt | hge
  · rw [recordResponse_of_le hkind (Nat.le_of_lt_succ hlt)]
    refine ⟨rfl, fun rec' hrec => ?_⟩
    obtain rfl := Option.some.inj hrec
    refine ⟨rfl, h, fun v hv => ?_⟩
    obtain ⟨-, hge⟩ := classify_eq_unrecognized_iff.mp (hkind.symm.trans hv)
    omega
  · rw [recordResponse_unrecognized (kind_of_ge hkind hge)]
    exact ⟨rfl, rec, rfl, h, kind_of_ge hkind hge, rfl⟩

theorem normalizeOp_wf (n : Byte) (args : List Byte) : responseWf (normalizeOp n args) := by
  unfold normalizeOp
  split
  · exact ⟨rfl, rfl⟩
  split
  · exact ⟨rfl, rfl⟩
  · exact okResponse_wf _

theorem compressOp_wf (t : Byte) (args : List Byte) : responseWf (compressOp t args) := by
  unfold compressOp
  split
  · exact ⟨rfl, rfl⟩
  split
  · exact ⟨rfl, rfl⟩
  · exact okResponse_wf _

theorem ctrlOp_wf (c : CtrlName) (args : List Byte) : responseWf (ctrlOp c args) := by
  unfold ctrlOp
  split
  · exact ⟨rfl, rfl⟩
  · exact okResponse_wf _

theorem decodeStatusOp_wf (args : List Byte) : responseWf (decodeStatusOp args) := by
  unfold decodeStatusOp
  split
  · exact ⟨rfl, rfl⟩
  · exact recordResponse_wf (decodeFrame_recordWf args)

/-- Every response of `Perform` has the shape of its code. -/
theorem perform_wf (req : Request) : responseWf (perform req) := by
  cases hd : decodeCmd req.cmd with
  | error e =>
    rw [perform_of_decodeCmd_error hd]
    exact ⟨rfl, rfl⟩
  | ok i =>
    rw [perform_of_decodeCmd_ok hd]
    rcases operation_cases (isHeader_of_decodeCmd hd) with ⟨n, rfl⟩ | ⟨x, rfl⟩ | ⟨c, rfl⟩ | ⟨n1, n2, rfl⟩ | rfl
    · exact normalizeOp_wf n req.args
    · exact compressOp_wf x req.args
    · rw [operationResponse_instrOfCtrl]
      exact ctrlOp_wf c req.args
    · exact okResponse_wf _
    · exact decodeStatusOp_wf req.args

/-- COMPRESS's working state is the fused walk over the part of the line it has taken in (log 3). -/
def walkedOver (t : Nat) (scanline : List Byte) (w : CompressWork) : Prop :=
  w.consumed ≤ scanline.length ∧ w = (scanline.take w.consumed).foldl (takeByte t) startCompress

theorem startCompress_walkedOver (t : Nat) (scanline : List Byte) : walkedOver t scanline startCompress :=
  ⟨Nat.zero_le _, rfl⟩

/-- The next byte of the line takes the walk one byte further. -/
theorem takeByte_walkedOver {t : Nat} {scanline : List Byte} {w : CompressWork} {b : Byte}
    (h : walkedOver t scanline w) (hb : scanline[w.consumed]? = some b) : walkedOver t scanline (takeByte t w b) := by
  obtain ⟨-, hwalk⟩ := h
  obtain ⟨hlt, hbyte⟩ := List.getElem?_eq_some_iff.mp hb
  refine ⟨by rw [takeByte_consumed]; exact hlt, ?_⟩
  rw [takeByte_consumed, ← List.take_concat_get' _ _ hlt, hbyte, List.foldl_append, ← hwalk]
  rfl

/-- COMPRESS's working state before a byte is taken in: the one there is, or a fresh one. -/
def compressSoFar : Work → CompressWork
  | .compressing w => w
  | _ => startCompress

theorem advanceCompress_eq (t : Nat) (scanline : List Byte) (work : Work) :
    advanceCompress t scanline work =
      .compressing ((scanline[(compressSoFar work).consumed]?).elim (compressSoFar work)
        (takeByte t (compressSoFar work))) := by
  cases work <;> simp only [advanceCompress, compressSoFar] <;> split <;> simp only [*, Option.elim]

/-- Taking in a byte, or finding the line at its end, keeps the working state the walk over what is taken in. -/
theorem advanceCompress_workBelongs {req : Request} {t : Byte} {work : Work}
    (hd : decodeCmd req.cmd = .ok (.compress t)) (h : workBelongs (.busy req) work) :
    workBelongs (.busy req) (advanceCompress t.toNat req.args work) := by
  have hsofar : walkedOver t.toNat req.args (compressSoFar work) := by
    cases work with
    | compressing w =>
      obtain ⟨_, _, hp, hd', hw⟩ := h
      cases hp
      cases hd.symm.trans hd'
      exact hw
    | none | receiving => exact startCompress_walkedOver _ _
  rw [advanceCompress_eq]
  refine ⟨req, t, rfl, hd, ?_⟩
  cases hb : req.args[(compressSoFar work).consumed]? with
  | none => exact hsofar
  | some b => exact takeByte_walkedOver hsofar hb

/-- The frame bytes DECODE_STATUS has received before one more: those there are, or none. -/
def receivedSoFar : Work → List Byte
  | .receiving bytes => bytes
  | _ => []

theorem advanceStatus_eq (frame : List Byte) (work : Work) :
    advanceStatus frame work =
      .receiving ((frame[(receivedSoFar work).length]?).elim (receivedSoFar work)
        fun b => receivedSoFar work ++ [b]) := by
  cases work <;> simp only [advanceStatus, receivedSoFar] <;> split <;> simp only [*, Option.elim]

/-- The bytes received stay the first of the frame. -/
theorem advanceStatus_workBelongs {req : Request} {work : Work} (hd : decodeCmd req.cmd = .ok .decodeStatus)
    (h : workBelongs (.busy req) work) : workBelongs (.busy req) (advanceStatus req.args work) := by
  have hsofar : receivedSoFar work = req.args.take (receivedSoFar work).length := by
    cases work with
    | receiving bytes =>
      obtain ⟨_, hp, -, hbytes⟩ := h
      cases hp
      exact hbytes
    | none | compressing => rfl
  rw [advanceStatus_eq]
  refine ⟨req, rfl, hd, ?_⟩
  cases hb : req.args[(receivedSoFar work).length]? with
  | none => exact hsofar
  | some b =>
    obtain ⟨hlt, hbyte⟩ := List.getElem?_eq_some_iff.mp hb
    rw [Option.elim, List.length_append, List.length_singleton, ← List.take_concat_get' _ _ hlt, hbyte, ← hsofar]

theorem advanceWork_workBelongs {s : State} (h : workBelongs s.phase s.work) :
    workBelongs (advanceWork s).phase (advanceWork s).work := by
  rw [advanceWork_phase]
  obtain heq | ⟨req, t, hp, hd, -, heq⟩ | ⟨req, hp, hd, heq⟩ := advanceWork_cases s
  · rwa [heq]
  · rw [hp] at h ⊢
    rw [heq]
    exact advanceCompress_workBelongs hd h
  · rw [hp] at h ⊢
    rw [heq]
    exact advanceStatus_workBelongs hd h

/-- The segment a header byte opens is one a header can say: bit 7 bounds its count or its length (R69). -/
theorem takeSegment_bounded {h : Byte} {bs rest : List Byte} {seg : Segment}
    (hs : takeSegment h bs = some (seg, rest)) : segmentBounded 0 seg := by
  unfold takeSegment at hs
  split at hs
  · next hle =>
    have hmax : h.toNat ≤ 127 := hle
    unfold takeLiteral at hs
    split at hs
    · cases hs
    · cases hs
      simp only [segmentBounded, litMax, List.length_take, List.length_drop]
      omega
  · next hgt =>
    have hmin : 128 ≤ h.toNat := by bv_omega
    have hmax := h.isLt
    unfold takeRepeat at hs
    split at hs
    · cases hs
    · cases hs
      simp only [segmentBounded, repMax]
      omega

/-- A round on a line not read to its end reads one more bounded segment, or ends the reading. -/
theorem readSegment_wf {h : Byte} {s : State} (hwf : readerWf s.reader) (hr : s.reader.rest ≠ []) :
    readerWf (readSegment (takeSegment h s.reader.rest) s).reader := by
  cases hs : takeSegment h s.reader.rest with
  | none => exact rfl
  | some found =>
    obtain ⟨seg, rest⟩ := found
    rw [readerWf] at hwf
    simp only [readSegment, readerWf]
    cases hres : s.reader.result with
    | malformed => exact absurd (by simpa only [hres] using hwf) hr
    | segments segs =>
      rw [hres] at hwf
      rw [appendSegment]
      simpa only [List.forall_mem_append, List.forall_mem_singleton] using ⟨hwf, takeSegment_bounded hs⟩

end Sys2Proof.Machine
end

section
/-! PROOFS. The invariant of Safety.lean: it holds after reset and every step keeps it, clause by clause. -/

namespace Sys2Proof.Machine

/-- The clauses on the responses taken and on those waiting are one, on the responses returned. -/
theorem stateInv_iff {s : State} : stateInv s ↔
    workBelongs s.phase s.work ∧ (∀ r ∈ returned s, responseWf r) ∧ readerWf s.reader := by
  rw [stateInv, returned, List.forall_mem_append]
  tauto

/-- Settles O56: nothing is held, nothing is returned and nothing is read. -/
theorem resetMeetsStateInv : Obligations.ResetMeetsStateInv :=
  stateInv_iff.mpr ⟨trivial, List.forall_mem_nil _, List.forall_mem_nil _⟩

/-- A step that leaves the request held takes in one more byte of it or nothing; every other step ends up without working
state. -/
theorem workBelongs_of_move {s t : State} (hmove : StepMove s t) (h : workBelongs s.phase s.work) :
    workBelongs t.phase t.work := by
  cases hmove with
  | answered | accepted | wasReset => exact trivial
  | progressed rest ha hs => exact advanceWork_workBelongs (s := { s with script := rest }) h
  | readerRound b rest ha hr => rwa [readSegment_phase, readSegment_work]
  | readerEnd | taken | nothingToTake | awaited | lineHanded | stayed => exact h

/-- A step returns at most one response, and that is `Perform`'s (R53). -/
theorem returned_wf_of_step {s t : State} (hstep : step s = .next t) (h : ∀ r ∈ returned s, responseWf r) :
    ∀ r ∈ returned t, responseWf r := by
  obtain heq | ⟨req, -, -, heq⟩ | ⟨rest, -, -, hrec, hnone⟩ := responsesKeepRequestOrder s t hstep
  · rwa [heq]
  · rw [heq, List.forall_mem_append, List.forall_mem_singleton]
    exact ⟨h, perform_wf req⟩
  · rw [returned, hrec, hnone, List.append_nil]
    exact (List.forall_mem_append.mp h).1

/-- Only a line handed over and a round of reading write the reference decoder. -/
theorem readerWf_of_move {s t : State} (hmove : StepMove s t) (h : readerWf s.reader) : readerWf t.reader := by
  cases hmove with
  | readerRound b rest ha hr => exact readSegment_wf h (by simp [hr])
  | lineHanded => exact List.forall_mem_nil _
  | progressed rest ha hs => rwa [advanceWork_reader]
  | readerEnd | answered | accepted | taken | nothingToTake | awaited | wasReset | stayed => exact h

/-- Settles O55, clause by clause. -/
theorem stepKeepsStateInv : Obligations.StepKeepsStateInv := by
  intro s t hinv hstep
  obtain ⟨hwork, hresponses, hreader⟩ := stateInv_iff.mp hinv
  have hmove := step_move hstep
  exact stateInv_iff.mpr
    ⟨workBelongs_of_move hmove hwork, returned_wf_of_step hstep hresponses, readerWf_of_move hmove hreader⟩

end Sys2Proof.Machine
end

section
/-! PROOFS. Byte sequences as numbers (00_scope.md R11), NORMALIZE as truncation (40_runcount_codec.md R104), and the CODE
byte of an outcome (60_exceptions.md R181). -/

namespace Sys2Proof.Machine

/-- The `k` bytes of a number do not show what lies above them. -/
theorem bytesBE_mul_add (k m v : Nat) : bytesBE k (m * 256 ^ k + v) = bytesBE k v := by
  induction k generalizing m with
  | zero => rfl
  | succ k ih =>
    have hbyte : BitVec.ofNat 8 ((m * 256 ^ (k + 1) + v) / 256 ^ k) = BitVec.ofNat 8 (v / 256 ^ k) := by
      apply BitVec.eq_of_toNat_eq
      rw [BitVec.toNat_ofNat, BitVec.toNat_ofNat, Nat.pow_succ', ← Nat.mul_assoc,
        Nat.add_comm, Nat.add_mul_div_right _ _ (by positivity), Nat.add_mul_mod_self_right]
    rw [bytesBE, bytesBE, hbyte, Nat.pow_succ', ← Nat.mul_assoc, ih]

/-- A byte sequence is read back from its value. -/
theorem bytesBE_beValue (bs : List Byte) : bytesBE bs.length (beValue bs) = bs := by
  induction bs with
  | nil => rfl
  | cons b bs ih =>
    have hfront : (b.toNat * 256 ^ bs.length + beValue bs) / 256 ^ bs.length = b.toNat := by
      rw [Nat.add_comm, Nat.add_mul_div_right _ _ (by positivity), Nat.div_eq_of_lt (beValue_lt bs), Nat.zero_add]
    rw [List.length_cons, bytesBE, beValue_cons, hfront, bytesBE_mul_add, ih, BitVec.ofNat_toNat, BitVec.setWidth_eq]

/-- Settles O11, from the two ways of reading back and the reading of a front byte. -/
theorem bigEndianBytesReadBack : Obligations.BigEndianBytesReadBack :=
  ⟨fun k v hv => ⟨bytesBE_length k v, beValue_bytesBE_of_lt hv⟩, fun bs => ⟨beValue_lt bs, bytesBE_beValue bs⟩,
    beValue_cons⟩

/-- `2 ^ n` divides `2 ^ 64`, so the signed and the unsigned reading of 8 bytes have the same low `n` bits (R104). -/
theorem normalizeInt_signedBE {bs : List Byte} (hl : bs.length ≤ 8) {n : Nat} (hn : n ≤ 64) :
    normalizeInt (signedBE bs) n = beValue bs % 2 ^ n := by
  have hdvd : (2 : Int) ^ n ∣ 2 ^ 64 := pow_dvd_pow 2 hn
  have hcast : (normalizeInt (signedBE bs) n : Int) = ((beValue bs % 2 ^ n : Nat) : Int) := by
    rw [normalize_cast, ← Int.emod_emod_of_dvd _ hdvd, signedBE_emod hl]
    push_cast
    rfl
  exact_mod_cast hcast

/-- Settles O9: the response's bytes hold the remainder, which is that of the unsigned reading. -/
theorem normalizeTruncates : Obligations.NormalizeTruncates := by
  intro s req n hp hn hl
  refine ⟨_, by rw [exec_normalize_of_busy hp, normalizeOp_ok hn hl], bytesBE_length 8 _, ?_⟩
  rw [beValue_bytesBE_of_lt (normalizeInt_lt_eight_bytes _ hn), normalizeInt_signedBE (Nat.le_of_eq hl) hn]

/-- The outcome a CODE byte reports, of those the block has (R181). -/
def codeOfByte (b : Byte) : Option Code :=
  [Code.ok, .unrecognizedStatusKind, .frameLengthError, .segmentOverflowError, .illegalOperation, .badOperand,
    .argLengthError].find? fun c => codeByte c = b

theorem codeOfByte_codeByte (c : Code) : codeOfByte (codeByte c) = some c := by
  cases c <;> rfl

/-- Settles O31: the table row by row, and no two rows share a byte because the byte tells the outcome. -/
theorem codeBytes : Obligations.CodeBytes := by
  refine ⟨rfl, rfl, rfl, rfl, rfl, rfl, rfl, fun c d h => Option.some.inj ?_⟩
  rw [← codeOfByte_codeByte c, h, codeOfByte_codeByte]

end Sys2Proof.Machine
end

section
/-! PROOFS. Reading back what the compressor writes: a segment's header (41_compressor.md R119), `parse` of a serialized
sequence (R122), and the reference decoder's run (R120; log 1). -/

namespace Sys2Proof.Machine

/-- A repeat's header byte is `256 - c`, with bit 7 set (R119). -/
theorem serializeSegment_rep (v : Byte) {c : Nat} (hpos : 1 ≤ c) (hle : c ≤ 128) :
    ∃ h : Byte, serializeSegment (.rep v c) = [h, v] ∧ h.toNat = 256 - c ∧ 0x80#8 ≤ h := by
  have hnum : normalizeInt (-(c : Int)) 8 = 256 - c := runCountLaws.1 c hpos hle
  have hheader : (BitVec.ofNat 8 (normalizeInt (-(c : Int)) 8)).toNat = 256 - c := by
    rw [hnum, BitVec.toNat_ofNat]
    omega
  exact ⟨_, rfl, hheader, by rw [BitVec.le_def, hheader]; simp; omega⟩

/-- A literal's header byte is its length minus one, with bit 7 clear (R119). -/
theorem serializeSegment_lit {bs : List Byte} (hpos : 1 ≤ bs.length) (hle : bs.length ≤ 128) :
    ∃ h : Byte, serializeSegment (.lit bs) = h :: bs ∧ h.toNat = bs.length - 1 ∧ h ≤ 0x7F#8 := by
  have hheader : (BitVec.ofNat 8 (bs.length - 1)).toNat = bs.length - 1 := by
    rw [BitVec.toNat_ofNat]
    omega
  exact ⟨_, rfl, hheader, by rw [BitVec.le_def, hheader]; simp; omega⟩

/-- Settles O21: the header row is by bit 7, and the two ranges of headers lie on either side of it. -/
theorem serializedHeadersDisjoint : Obligations.SerializedHeadersDisjoint := by
  refine ⟨fun v c hpos hle => ?rep, fun bs hpos hle => ?lit⟩
  case rep =>
    obtain ⟨h, hbytes, hnum, hge⟩ := serializeSegment_rep v hpos hle
    exact ⟨h, hbytes, hnum, decodeHeader_of_ge hge⟩
  case lit =>
    obtain ⟨h, hbytes, hnum, hle'⟩ := serializeSegment_lit hpos hle
    exact ⟨h, hbytes, hnum, decodeHeader_of_le hle'⟩

theorem takeLiteral_of_le {h : Byte} {bs : List Byte} (hl : h.toNat + 2 ≤ bs.length) :
    takeLiteral h bs = some (.lit ((bs.drop 1).take (h.toNat + 1)), bs.drop (h.toNat + 2)) :=
  if_neg (Nat.not_lt.mpr hl)

theorem takeLiteral_eq_none {h : Byte} {bs : List Byte} (hl : bs.length < h.toNat + 2) : takeLiteral h bs = none :=
  if_pos hl

theorem takeRepeat_cons_cons (h h' v : Byte) (rest : List Byte) :
    takeRepeat h (h' :: v :: rest) = some (.rep v (256 - h.toNat), rest) :=
  if_neg (by simp)

theorem takeRepeat_eq_none {h : Byte} {bs : List Byte} (hl : bs.length < 2) : takeRepeat h bs = none := if_pos hl

theorem readSegment_some {s : State} {segs : List Segment} (hres : s.reader.result = .segments segs) (seg : Segment)
    (rest : List Byte) : readSegment (some (seg, rest)) s =
      { s with reader := { rest := rest, result := .segments (segs ++ [seg]) } } := by
  rw [readSegment, hres, appendSegment]

/-- Settles O38, by the two outcomes of the length check. -/
theorem literalHeaderReads : Obligations.LiteralHeaderReads := by
  intro s h segs hres
  refine ⟨fun hl => ?_, fun hl => ?_⟩
  · rw [exec_litHeader, takeLiteral_of_le hl, readSegment_some hres]
  · rw [exec_litHeader, takeLiteral_eq_none hl, readSegment]

/-- Settles O39, by the two outcomes of the length check. -/
theorem repeatHeaderReads : Obligations.RepeatHeaderReads := by
  intro s h segs hres
  refine ⟨fun h' v rest hbytes => ?_, fun hl => ?_⟩
  · rw [exec_repHeader, hbytes, takeRepeat_cons_cons, readSegment_some hres]
  · rw [exec_repHeader, takeRepeat_eq_none hl, readSegment]

/-- A header reads back the segment it was written for, and leaves what follows. -/
theorem takeSegment_serializeSegment {t : Nat} {seg : Segment} (hseg : segmentBounded t seg) (more : List Byte) :
    ∃ h tail, serializeSegment seg = h :: tail ∧ takeSegment h (h :: (tail ++ more)) = some (seg, more) := by
  cases seg with
  | rep v c =>
    obtain ⟨hmin, hmax⟩ := hseg
    obtain ⟨h, hbytes, hnum, hge⟩ := serializeSegment_rep v (le_of_max_le_right hmin) hmax
    refine ⟨h, [v], hbytes, ?_⟩
    have hcount : 256 - h.toNat = c := by rw [repMax] at hmax; omega
    rw [takeSegment, if_neg (by bv_omega), List.singleton_append, takeRepeat_cons_cons, hcount]
  | lit bs =>
    obtain ⟨hpos, hmax⟩ := hseg
    obtain ⟨h, hbytes, hnum, hle⟩ := serializeSegment_lit hpos hmax
    refine ⟨h, bs, hbytes, ?_⟩
    have hlen : h.toNat + 1 = bs.length := by omega
    rw [takeSegment, if_pos hle, takeLiteral_of_le (by simp; omega)]
    simp [hlen]

theorem parse_of_takeSegment_none {h : Byte} {bs : List Byte} (hs : takeSegment h (h :: bs) = none) :
    parse (h :: bs) = .malformed := by
  rw [parse_cons, hs]

theorem parse_of_takeSegment_some {h : Byte} {bs rest : List Byte} {seg : Segment}
    (hs : takeSegment h (h :: bs) = some (seg, rest)) : parse (h :: bs) = (parse rest).after [seg] := by
  rw [parse_cons, hs]

theorem ReadResult.after_after (a b : List Segment) (r : ReadResult) : (r.after b).after a = r.after (a ++ b) := by
  cases r <;> simp [ReadResult.after]

/-- Each header of a serialized sequence reads back its own segment (R122). -/
theorem parse_serialize {t : Nat} {segs : List Segment} (h : ∀ seg ∈ segs, segmentBounded t seg) :
    parse (serialize segs) = .segments segs := by
  induction segs with
  | nil => rfl
  | cons seg segs ih =>
    obtain ⟨hseg, hsegs⟩ := List.forall_mem_cons.mp h
    obtain ⟨b, tail, hbytes, htake⟩ := takeSegment_serializeSegment hseg (serialize segs)
    rw [serialize_cons, hbytes, List.cons_append, parse_of_takeSegment_some htake, ih hsegs, ReadResult.after,
      List.singleton_append]

/-- Settles O22: the segments the block makes are bounded, so each header reads back its own, and they hold the line. -/
theorem compressRoundTrip : Obligations.CompressRoundTrip := by
  intro scanline t ht
  have hparse := parse_serialize (segmentRuns_bounded ht scanline)
  refine ⟨_, rfl, ?_, hparse, hparse⟩
  rw [expand_segmentRuns ht (runs_length_pos scanline), bytesOfRuns_runs]

/-- At the line's end one step gives the move back to the block. -/
theorem runSteps_one_of_read {s : State} {result : ReadResult} (ha : s.active = .reader)
    (hr : s.reader = { rest := [], result := result }) :
    runSteps 1 s = .next { s with active := .block, reader := { rest := [], result := result } } := by
  rw [runSteps_succ_of_next (step_reader_end ha (congrArg Reader.rest hr)), runSteps_zero, hr]

/-- One round reads the segment at the front of what is left. -/
theorem step_reads_segment {s : State} {t : Nat} {seg : Segment} {segs done : List Segment} (ha : s.active = .reader)
    (hr : s.reader = { rest := serialize (seg :: segs), result := .segments done }) (hseg : segmentBounded t seg) :
    step s = .next { s with reader := { rest := serialize segs, result := .segments (done ++ [seg]) } } := by
  obtain ⟨b, tail, hbytes, htake⟩ := takeSegment_serializeSegment hseg (serialize segs)
  have hrest : s.reader.rest = b :: (tail ++ serialize segs) := by rw [hr, serialize_cons, hbytes, List.cons_append]
  rw [step_reader_header ha hrest, hrest, htake, readSegment_some (congrArg Reader.result hr)]

/-- The reference decoder reads a serialized sequence back in one step for each segment and one for the line's end. -/
theorem runSteps_reads_segments {s : State} {t : Nat} {segs done : List Segment} (ha : s.active = .reader)
    (hr : s.reader = { rest := serialize segs, result := .segments done })
    (hsegs : ∀ seg ∈ segs, segmentBounded t seg) :
    runSteps (segs.length + 1) s =
      .next { s with active := .block, reader := { rest := [], result := .segments (done ++ segs) } } := by
  induction segs generalizing s done with
  | nil =>
    rw [List.append_nil]
    exact runSteps_one_of_read ha hr
  | cons seg segs ih =>
    obtain ⟨hseg, hrest⟩ := List.forall_mem_cons.mp hsegs
    have hrun := ih (s := { s with reader := { rest := serialize segs, result := .segments (done ++ [seg]) } }) ha rfl
      hrest
    rw [List.length_cons, runSteps_succ_of_next (step_reads_segment ha hr hseg), hrun, List.append_assoc,
      List.singleton_append]

/-- Settles O41: the line's own segments are read back. -/
theorem readerRecoversCompressedLine : Obligations.ReaderRecoversCompressedLine := by
  intro s scanline t ht ha hr
  refine ⟨segmentRuns (runs scanline) t, ?_, runSteps_reads_segments ha hr (segmentRuns_bounded ht scanline)⟩
  rw [expand_segmentRuns ht (runs_length_pos scanline), bytesOfRuns_runs]

/-- The run from any point of the reading: `parse` of what is left, behind the segments read before. Each round takes two
bytes or more, or ends the reading. -/
theorem runSteps_parses {s : State} {bs : List Byte} {done : List Segment} (ha : s.active = .reader)
    (hr : s.reader = { rest := bs, result := .segments done }) :
    ∃ k, k ≤ bs.length + 1 ∧ runSteps k s =
      .next { s with active := .block, reader := { rest := [], result := (parse bs).after done } } := by
  induction hn : bs.length using Nat.strong_induction_on generalizing s bs done with
  | _ n ih =>
    cases bs with
    | nil =>
      refine ⟨1, Nat.le_add_left 1 n, ?_⟩
      rw [runSteps_one_of_read ha hr, parse_nil, ReadResult.after, List.append_nil]
    | cons b rest =>
      have hstep := step_reader_header ha (congrArg Reader.rest hr)
      rw [congrArg Reader.rest hr] at hstep
      cases htake : takeSegment b (b :: rest) with
      | none =>
        rw [htake, readSegment] at hstep
        refine ⟨2, by rw [List.length_cons] at hn; omega, ?_⟩
        rw [runSteps_succ_of_next hstep, parse_of_takeSegment_none htake]
        exact runSteps_one_of_read (s := { s with reader := { rest := [], result := .malformed } }) ha rfl
      | some found =>
        obtain ⟨seg, rest'⟩ := found
        have hlen := takeSegment_rest_length htake
        rw [htake, readSegment_some (congrArg Reader.result hr)] at hstep
        obtain ⟨k, hk, hrun⟩ := ih rest'.length (by omega)
          (s := { s with reader := { rest := rest', result := .segments (done ++ [seg]) } }) ha rfl rfl
        refine ⟨k + 1, by omega, ?_⟩
        rw [runSteps_succ_of_next hstep, hrun, parse_of_takeSegment_some htake, ReadResult.after_after]

/-- Settles O40: the run from a line of which nothing is read. -/
theorem readerRunComputesParse : Obligations.ReaderRunComputesParse := by
  intro s bs ha hr
  obtain ⟨k, hk, hrun⟩ := runSteps_parses ha hr
  refine ⟨k, hk, ?_⟩
  rw [hrun]
  cases parse bs <;> rfl

end Sys2Proof.Machine
end

section
/-! PROOFS. The one-pass walk (41_compressor.md R124): its working state, closed at any point, holds the segments of the
bytes taken in. -/

namespace Sys2Proof.Machine

/-- The first run of a line is of its first byte. -/
theorem runs_head_value {b : Byte} {bs : List Byte} {r : Run} {rest : List Run} (h : runs (b :: bs) = r :: rest) :
    r.value = b := by
  rw [runs_cons] at h
  obtain ⟨r', rest', -, -, heq⟩ | ⟨-, heq⟩ := consRun_cases b (runs bs)
  · rw [← (List.cons.inj (heq.symm.trans h)).1]
  · rw [← (List.cons.inj (heq.symm.trans h)).1]

/-- A byte before another value, or at the end of the line, is a run of its own. -/
theorem consRun_of_head_ne {v : Byte} {bs : List Byte} (h : bs.head? ≠ some v) :
    consRun v (runs bs) = { value := v, length := 1 } :: runs bs := by
  obtain ⟨r, rest, heq, hv, -⟩ | ⟨-, heq⟩ := consRun_cases v (runs bs)
  · cases bs with
    | nil => simp at heq
    | cons b bs => exact absurd (congrArg some ((runs_head_value heq).symm.trans hv)) h
  · exact heq

/-- Equal bytes in front of another value, or of the end of the line, are one run (R111). -/
theorem runs_replicate_append {v : Byte} {bs : List Byte} (h : bs.head? ≠ some v) {n : Nat} (hn : 1 ≤ n) :
    runs (List.replicate n v ++ bs) = { value := v, length := n } :: runs bs := by
  induction n, hn using Nat.le_induction with
  | base => exact consRun_of_head_ne h
  | succ n _ ih => rw [List.replicate_succ, List.cons_append, runs_cons, ih, consRun, if_pos rfl]

/-- The bytes of the current run of a working state. -/
def runBytes (w : CompressWork) : List Byte := w.run.elim [] fun r => List.replicate r.length r.value

/-- What the three passes make of a working state and the rest of the line: the segments produced so far, and the walk over
the current run's bytes with the rest. -/
def segmentsOnward (t : Nat) (w : CompressWork) (rest : List Byte) : List Segment :=
  w.segs ++ segmentFrom t w.acc (runs (runBytes w ++ rest))

/-- Closing a run is the walk's move over it (R113). -/
theorem closeRun_segmentFrom (t : Nat) (w : CompressWork) (r : Run) (rs : List Run) :
    (closeRun t w r).segs ++ segmentFrom t (closeRun t w r).acc rs = w.segs ++ segmentFrom t w.acc (r :: rs) := by
  unfold closeRun
  split
  · next hge => rw [segmentFrom_cons_of_le hge, segmentRuns]; simp only [List.append_assoc]
  · next hlt => rw [segmentFrom_cons_of_lt (Nat.not_le.mp hlt)]

/-- At the end of the line the walk closes the current run and flushes the accumulator. -/
theorem finishCompress_eq (t : Nat) {w : CompressWork} (hw : runWithin w) :
    finishCompress t w = segmentsOnward t w [] := by
  unfold finishCompress segmentsOnward runBytes
  cases hr : w.run with
  | none => rfl
  | some r =>
    rw [Option.elim, runs_replicate_append (by simp) (hw r hr).1]
    exact closeRun_segmentFrom t w r []

/-- Taking in the next byte of the line leaves the segments to come as they are. -/
theorem takeByte_segmentsOnward (t : Nat) {w : CompressWork} (hw : runWithin w) (b : Byte) (rest : List Byte) :
    segmentsOnward t (takeByte t w b) rest = segmentsOnward t w (b :: rest) := by
  unfold takeByte segmentsOnward runBytes
  cases hr : w.run with
  | none => rfl
  | some r =>
    by_cases hv : r.value = b
    · simp only [if_pos hv, Option.elim]
      rw [List.replicate_succ', List.append_assoc, hv, List.singleton_append]
    · simp only [if_neg hv, Option.elim]
      rw [runs_replicate_append (by simpa using Ne.symm hv) (hw r hr).1]
      exact closeRun_segmentFrom t w r (runs (b :: rest))

theorem finishCompress_foldl (t : Nat) (scanline : List Byte) {w : CompressWork} (hw : runWithin w) :
    finishCompress t (scanline.foldl (takeByte t) w) = segmentsOnward t w scanline := by
  induction scanline generalizing w with
  | nil => exact finishCompress_eq t hw
  | cons b bs ih => rw [List.foldl_cons, ih (takeByte_runWithin hw), takeByte_segmentsOnward t hw]

/-- Settles O26: before the first byte the segments to come are those of the three passes. -/
theorem fusedPassesAgree : Obligations.FusedPassesAgree := by
  intro scanline t
  exact congrArg serialize (finishCompress_foldl t scanline startCompress_runWithin)

end Sys2Proof.Machine
end

section
/-! PROOFS. The length of a compressed line (41_compressor.md R123), and with it the raster frame it fits (42_command_framer.md
R151). -/

namespace Sys2Proof.Machine

/-- The bytes `n` line bytes take as literals: themselves and a header for each 128 (R116, R118). -/
def literalCost (n : Nat) : Nat := n + (n + 127) / 128

theorem serializeSegment_rep_length (v : Byte) (c : Nat) : (serializeSegment (.rep v c)).length = 2 := rfl

theorem serializeSegment_lit_length (bs : List Byte) : (serializeSegment (.lit bs)).length = bs.length + 1 := rfl

theorem serialize_cons_length (seg : Segment) (segs : List Segment) :
    (serialize (seg :: segs)).length = (serializeSegment seg).length + (serialize segs).length := by
  rw [serialize_cons, List.length_append]

theorem serialize_append_length (a b : List Segment) :
    (serialize (a ++ b)).length = (serialize a).length + (serialize b).length := by
  rw [serialize_append, List.length_append]

theorem serialize_map_rep_length (v : Byte) (counts : List Nat) :
    (serialize (counts.map (Segment.rep v))).length = 2 * counts.length := by
  induction counts with
  | nil => rfl
  | cons c counts ih =>
    rw [List.map_cons, serialize_cons_length, serializeSegment_rep_length, ih, List.length_cons]
    omega

theorem serialize_full_lits_length {full : List (List Byte)} (h : ∀ bs ∈ full, bs.length = 128) :
    (serialize (full.map Segment.lit)).length = 129 * full.length ∧ full.flatten.length = 128 * full.length := by
  induction full with
  | nil => exact ⟨rfl, rfl⟩
  | cons bs full ih =>
    obtain ⟨hbs, hfull⟩ := List.forall_mem_cons.mp h
    obtain ⟨hser, hflat⟩ := ih hfull
    rw [List.map_cons, serialize_cons_length, serializeSegment_lit_length, List.flatten_cons, List.length_append,
      List.length_cons]
    omega

/-- A flush writes the accumulator's bytes and a header for each full piece and for what is left. -/
theorem serialize_flushLiterals_length (acc : List Byte) :
    (serialize (flushLiterals acc)).length = literalCost acc.length := by
  by_cases hne : acc = []
  · simp [hne, literalCost]
  · obtain ⟨full, last, heq, hflat, hfull, hpos, hle⟩ := litChunks_split acc hne
    obtain ⟨hser, hlen⟩ := serialize_full_lits_length hfull
    have hacc : acc.length = full.flatten.length + last.length := by rw [← hflat, List.length_append]
    rw [flushLiterals_of_ne hne, heq, serialize_append_length, hser, serialize_cons_length,
      serializeSegment_lit_length, serialize_nil, List.length_nil, hacc, hlen, literalCost]
    omega

/-- A segment takes at most two bytes for each byte it stands for. -/
theorem serializeSegment_length_le {t : Nat} {seg : Segment} (h : segmentBounded t seg) :
    (serializeSegment seg).length ≤ 2 * (expandSegment seg).length := by
  cases seg with
  | rep v c =>
    obtain ⟨hmin, -⟩ := h
    rw [serializeSegment_rep_length, expandSegment, List.length_replicate]
    omega
  | lit bs =>
    obtain ⟨hpos, -⟩ := h
    rw [serializeSegment_lit_length, expandSegment]
    omega

theorem serialize_length_le {t : Nat} {segs : List Segment} (h : ∀ seg ∈ segs, segmentBounded t seg) :
    (serialize segs).length ≤ 2 * (expand segs).length := by
  induction segs with
  | nil => exact Nat.le_refl 0
  | cons seg segs ih =>
    obtain ⟨hseg, hsegs⟩ := List.forall_mem_cons.mp h
    have hfirst := serializeSegment_length_le hseg
    have hrest := ih hsegs
    rw [serialize_cons_length, expand_cons, List.length_append]
    omega

/-- From the threshold 3 on, the pieces of a split run take fewer bytes than the run has. -/
theorem serialize_repChunks_length_lt (v : Byte) {k t : Nat} (hmin : 3 ≤ t) (ht : t ≤ 64) (htk : t ≤ k) :
    (serialize (repChunks v k t)).length < k := by
  obtain ⟨counts, heq, hsum, hcount⟩ := repChunks_counts v ht htk (by omega)
  have hpieces : counts.length * 3 ≤ counts.sum := by
    simpa using List.card_nsmul_le_sum counts 3 fun c hc => hmin.trans (le_of_max_le_left (hcount c hc).1)
  rw [heq, serialize_map_rep_length]
  omega

/-- From the threshold 3 on, no line is longer than as literals throughout: a split run makes up for the header of the
literals before it. -/
theorem serialize_segmentFrom_length_le {t : Nat} (hmin : 3 ≤ t) (ht : t ≤ 64) (rs : List Run) (acc : List Byte) :
    (serialize (segmentFrom t acc rs)).length ≤ literalCost (acc.length + (bytesOfRuns rs).length) := by
  induction rs generalizing acc with
  | nil => exact (serialize_flushLiterals_length acc).le
  | cons r rs ih =>
    rcases Nat.lt_or_ge r.length t with hlt | hge
    · have hrest := ih (acc ++ List.replicate r.length r.value)
      rw [segmentFrom_cons_of_lt hlt]
      simpa [Nat.add_assoc] using hrest
    · have hpieces := serialize_repChunks_length_lt r.value hmin ht hge
      have hrest := ih []
      rw [segmentFrom_cons_of_le hge, serialize_append_length, serialize_append_length, serialize_flushLiterals_length,
        bytesOfRuns_cons, List.length_append, List.length_replicate]
      rw [List.length_nil, Nat.zero_add] at hrest
      simp only [segmentRuns, literalCost] at hrest ⊢
      omega

/-- Runs of one byte, none of them below the threshold, take two bytes each. -/
theorem serialize_segmentRuns_length_of_ones {t : Nat} (ht : t ≤ 1) {rs : List Run} (h : ∀ r ∈ rs, r.length = 1) :
    (serialize (segmentRuns rs t)).length = 2 * (bytesOfRuns rs).length := by
  induction rs with
  | nil => rfl
  | cons r rs ih =>
    obtain ⟨hr, hrs⟩ := List.forall_mem_cons.mp h
    have hpiece : repChunks r.value r.length t = [.rep r.value 1] := by
      rw [hr]
      exact repChunks_of_le (by decide)
    rw [segmentRuns, segmentFrom_cons_of_le (by omega), hpiece, flushLiterals_nil, List.nil_append,
      List.singleton_append, serialize_cons_length, serializeSegment_rep_length, ih hrs, bytesOfRuns_cons,
      List.length_append, List.length_replicate, hr]
    omega

theorem compress_length_le_literalCost {t : Nat} (hmin : 3 ≤ t) (ht : t ≤ 64) (scanline : List Byte) :
    (compress scanline t).length ≤ literalCost scanline.length := by
  have h := serialize_segmentFrom_length_le hmin ht (runs scanline) []
  rwa [List.length_nil, Nat.zero_add, bytesOfRuns_runs] at h

/-- Settles O23: the first bound segment by segment, the second along the walk; a line that is one accumulation reaches
the second, and one of single bytes without literals the first. -/
theorem compressedLengthBounds : Obligations.CompressedLengthBounds := by
  intro scanline t ht
  refine ⟨?double, fun hmin => compress_length_le_literalCost hmin ht scanline, fun hshort => ?literals,
    fun hone hruns => ?ones⟩
  case double =>
    have h := serialize_length_le (segmentRuns_bounded ht scanline)
    rwa [expand_segmentRuns ht (runs_length_pos scanline), bytesOfRuns_runs] at h
  case literals =>
    rw [compress, segmentRuns, segmentFrom_of_forall_lt hshort, List.nil_append, bytesOfRuns_runs,
      serialize_flushLiterals_length, literalCost]
  case ones =>
    rw [compress, serialize_segmentRuns_length_of_ones hone hruns, bytesOfRuns_runs]

/-- RASTERC's request: n1 is the length of the data, n2 is 0 (R73, R151). -/
theorem assembleForm_rasterc_of_le {data : List Byte} (h : data.length ≤ 255) :
    assembleForm (.rasterc data) =
      some { cmd := cmdWord 0x3 0 (BitVec.ofNat 8 data.length) 0, args := data } :=
  assembleRaster_of_le h (Nat.zero_le 255) data

/-- The block frames the data behind 0x47, n1 and n2 (R149). -/
theorem perform_rasterFrame (n1 n2 : Byte) (data : List Byte) :
    perform { cmd := cmdWord 0x3 0 n1 n2, args := data } = okResponse (0x47 :: n1 :: n2 :: data) :=
  perform_of_decodeCmd_ok (req := { cmd := cmdWord 0x3 0 n1 n2, args := data }) (decodeCmd_rasterFrame n1 n2)

/-- Settles O60: 253 bytes are at most 255 as literals, which RASTERC takes, and the request frames them. -/
theorem compressedLineFitsRasterFrame : Obligations.CompressedLineFitsRasterFrame := by
  intro scanline t hmin ht hlen
  have hcost := compress_length_le_literalCost hmin ht scanline
  generalize compress scanline t = data at hcost ⊢
  have hfits : data.length ≤ 255 := by
    rw [literalCost] at hcost
    omega
  have hn1 : (BitVec.ofNat 8 data.length).toNat = data.length := by
    rw [BitVec.toNat_ofNat]
    omega
  refine ⟨_, _, assembleForm_rasterc_of_le hfits, hn1, decodeCmd_rasterFrame _ 0, ?_⟩
  rw [perform_rasterFrame, okResponse]

end Sys2Proof.Machine
end

section
/-! PROOFS. Consequences of the segmentation: adjacent literals (41_compressor.md R117), the smallest thresholds (R125) and
the empty line (R126). -/

namespace Sys2Proof.Machine

/-- Where a LiteralRun stands before another, it is full. -/
def fullBeforeLiteral : Segment → Segment → Prop
  | .lit a, .lit _ => a.length = 128
  | _, _ => True

/-- A split run is RepeatRuns only, at least one, whatever the threshold. -/
theorem repChunks_eq_map_rep (v : Byte) (k t : Nat) : ∃ counts ≠ [], repChunks v k t = counts.map (Segment.rep v) := by
  rcases Nat.lt_or_ge 128 k with hlt | hle
  · by_cases hr : k % 128 = 0
    · exact ⟨List.replicate (k / 128) 128, by simp; omega, by rw [repChunks_of_mod_eq_zero hlt hr, List.map_replicate]⟩
    · rcases Nat.lt_or_ge (k % 128) t with hb | hm
      · exact ⟨List.replicate (k / 128 - 1) 128 ++ [128 - (t - k % 128), t], by simp,
          by rw [repChunks_of_mod_lt hlt hr hb, List.map_append, List.map_replicate]; rfl⟩
      · exact ⟨List.replicate (k / 128) 128 ++ [k % 128], by simp,
          by rw [repChunks_of_le_mod hlt hr hm, List.map_append, List.map_replicate]; rfl⟩
  · exact ⟨[k], by simp, repChunks_of_le hle⟩

theorem flushLiterals_isChain (acc : List Byte) : (flushLiterals acc).IsChain fullBeforeLiteral := by
  by_cases hne : acc = []
  · rw [hne, flushLiterals_nil]
    exact List.isChain_nil
  · obtain ⟨full, last, heq, -, hfull, -⟩ := litChunks_split acc hne
    rw [flushLiterals_of_ne hne, heq]
    clear heq
    induction full with
    | nil => exact List.isChain_singleton _
    | cons bs full ih =>
      obtain ⟨hbs, hrest⟩ := List.forall_mem_cons.mp hfull
      refine List.isChain_cons.mpr ⟨fun seg _ => ?_, ih hrest⟩
      cases seg with
      | rep => trivial
      | lit => exact hbs

/-- RepeatRuns in front of a sequence put no two LiteralRuns side by side. -/
theorem isChain_map_rep_append (v : Byte) (counts : List Nat) {segs : List Segment}
    (h : segs.IsChain fullBeforeLiteral) : (counts.map (Segment.rep v) ++ segs).IsChain fullBeforeLiteral := by
  induction counts with
  | nil => exact h
  | cons c counts ih => exact List.isChain_cons.mpr ⟨fun _ _ => trivial, ih⟩

/-- A LiteralRun before a RepeatRun meets no other. -/
theorem isChain_append_rep {v : Byte} {c : Nat} {a b : List Segment} (ha : a.IsChain fullBeforeLiteral)
    (hb : (Segment.rep v c :: b).IsChain fullBeforeLiteral) :
    (a ++ Segment.rep v c :: b).IsChain fullBeforeLiteral := by
  refine List.isChain_append.mpr ⟨ha, hb, fun x _ y hy => ?_⟩
  obtain rfl := Option.some.inj hy
  cases x <;> trivial

theorem segmentFrom_isChain (t : Nat) (rs : List Run) (acc : List Byte) :
    (segmentFrom t acc rs).IsChain fullBeforeLiteral := by
  induction rs generalizing acc with
  | nil => exact flushLiterals_isChain acc
  | cons r rs ih =>
    rcases Nat.lt_or_ge r.length t with hlt | hge
    · rw [segmentFrom_cons_of_lt hlt]
      exact ih _
    · obtain ⟨counts, hne, heq⟩ := repChunks_eq_map_rep r.value r.length t
      have hrest := isChain_map_rep_append r.value counts (ih [])
      obtain ⟨c, counts, rfl⟩ := List.exists_cons_of_ne_nil hne
      rw [segmentFrom_cons_of_le hge, heq, List.append_assoc]
      exact isChain_append_rep (flushLiterals_isChain acc) hrest

/-- Settles O19: along the walk, only a flush puts two LiteralRuns side by side. -/
theorem adjacentLiteralsAreSplits : Obligations.AdjacentLiteralsAreSplits := by
  intro scanline t p q a b heq
  have hchain : (segmentRuns (runs scanline) t).IsChain fullBeforeLiteral := segmentFrom_isChain t (runs scanline) []
  exact List.isChain_iff_forall_rel_of_append_cons_cons.mp hchain heq

/-- Where every run meets the threshold, the walk only splits runs. -/
theorem segmentRuns_of_forall_le {t : Nat} {rs : List Run} (h : ∀ r ∈ rs, t ≤ r.length) :
    segmentRuns rs t = rs.flatMap fun r => repChunks r.value r.length t := by
  induction rs with
  | nil => rfl
  | cons r rs ih =>
    obtain ⟨hr, hrs⟩ := List.forall_mem_cons.mp h
    rw [segmentRuns, segmentFrom_cons_of_le hr, ih hrs, flushLiterals_nil, List.nil_append, List.flatMap_cons]

theorem runs_meet_of_le_one {t : Nat} (ht : t ≤ 1) (scanline : List Byte) : ∀ r ∈ runs scanline, t ≤ r.length :=
  fun r hr => ht.trans (runs_length_pos scanline r hr)

/-- A remainder that is not 0 meets both thresholds 0 and 1, so nothing borrows. -/
theorem repChunks_zero_eq_one (v : Byte) (k : Nat) : repChunks v k 0 = repChunks v k 1 := by
  rcases Nat.lt_or_ge 128 k with hlt | hle
  · by_cases hr : k % 128 = 0
    · rw [repChunks_of_mod_eq_zero hlt hr, repChunks_of_mod_eq_zero hlt hr]
    · rw [repChunks_of_le_mod hlt hr (Nat.zero_le _), repChunks_of_le_mod hlt hr (Nat.one_le_iff_ne_zero.mpr hr)]
  · rw [repChunks_of_le hle, repChunks_of_le hle]

theorem segmentRuns_zero_eq_one (scanline : List Byte) :
    segmentRuns (runs scanline) 0 = segmentRuns (runs scanline) 1 := by
  rw [segmentRuns_of_forall_le (runs_meet_of_le_one (Nat.zero_le 1) scanline),
    segmentRuns_of_forall_le (runs_meet_of_le_one (Nat.le_refl 1) scanline)]
  simp only [repChunks_zero_eq_one]

theorem lit_not_mem_segmentRuns {t : Nat} (ht : t ≤ 1) (scanline bs : List Byte) :
    Segment.lit bs ∉ segmentRuns (runs scanline) t := by
  rw [segmentRuns_of_forall_le (runs_meet_of_le_one ht scanline), List.mem_flatMap]
  rintro ⟨r, -, hmem⟩
  obtain ⟨counts, -, heq⟩ := repChunks_eq_map_rep r.value r.length t
  simp [heq] at hmem

/-- Settles O24: with T = 0 and T = 1 every run is split alike, and with T = 2 counts are bounded from below by 2. -/
theorem smallThresholds : Obligations.SmallThresholds := by
  intro scanline
  refine ⟨congrArg serialize (segmentRuns_zero_eq_one scanline), lit_not_mem_segmentRuns (Nat.zero_le 1) scanline,
    lit_not_mem_segmentRuns (Nat.le_refl 1) scanline, fun v c hmem => ?_⟩
  obtain ⟨hmin, -⟩ := segmentRuns_bounded (by decide : 2 ≤ 64) scanline _ hmem
  exact le_of_max_le_left hmin

/-- Settles O25: an empty line passes both checks and has no segments. -/
theorem emptyLineCompressesToNothing : Obligations.EmptyLineCompressesToNothing := by
  intro s req t hp hnil ht
  rw [exec_compress_of_busy hp, hnil, compressOp_ok ht (Nat.zero_le _)]
  rfl

end Sys2Proof.Machine
end
